-- ==== Sys2Proof/Word.lean ====
section
/-! DEFINITION. The word types of FWALU: bytes, 16-bit halves and 32-bit command words (spec/00_scope.md R6, R9). -/

namespace Sys2Proof

/-- An 8-bit value: `SCALE`, an index, a byte of `TMEM`, an `imm8` (R6). -/
abbrev Byte := BitVec 8

/-- A 16-bit value: `ACC`, a calibration word, a `TMEM` address, an `imm16` (R6, R60). -/
abbrev Half := BitVec 16

/-- A 32-bit value: a command word, or an exact 16×16 product (R80, R182). -/
abbrev Word := BitVec 32

end Sys2Proof
end

