-- ==== Sys2Proof/Syntax.lean ====
section
/-! DEFINITION. The syntax of FWALU: commands (one constructor per row of spec/opcode_table.json), their operand forms,
the causes of a rejection, the host's actions and the pseudo-instructions. -/

namespace Sys2Proof

/-- The three operand forms (R81). -/
inductive Form
  | none
  | imm8
  | imm16
  deriving DecidableEq, Repr

/-- A command with its operand (R85). Immediates are unsigned values of the form's width (R82). -/
inductive Instr
  | nop
  | ldacc (imm : Half)
  | ldh (imm : Byte)
  | ldl (imm : Byte)
  | add16 (imm : Half)
  | sub16 (imm : Half)
  | addw (imm : Half)
  | mul8
  | shl1
  | shr1
  | shr4
  | setbias (imm : Half)
  | setthr (imm : Half)
  | setsub (imm : Half)
  | setscl (imm : Byte)
  | setper (imm : Half)
  | setlinf (imm : Half)
  | settbase (imm : Half)
  | loadtbl (n : Byte)
  | clrerr
  | lin (sensorSum : Half)
  | row
  | col
  deriving DecidableEq, Repr

/-- Why a command is rejected (R211). `NONE` (0x00) is never raised and is no cause. -/
inductive Cause
  /-- `OPC` is not in the opcode map (R86). -/
  | illegalOpcode
  /-- `RSV` or an unused `IMM` bit is 1 (R81). -/
  | reservedBits
  /-- LOADTBL with N = 0 (R141). -/
  | tableEmpty
  /-- LOADTBL over thresholds that decrease somewhere (R142). -/
  | tableOrder
  /-- COL while `TVALID = 0` (R199). -/
  | noTable
  deriving DecidableEq, Repr

/-- The host's actions (R226). -/
inductive Action
  /-- `SUBMIT(w)`: a command word. -/
  | submit (w : Word)
  /-- `READ(r)`: a register number. -/
  | read (r : Byte)
  /-- `TWRITE(a, v)`: a table-memory address and a byte. -/
  | twrite (a : Half) (v : Byte)
  /-- `RESET`. -/
  | reset
  deriving DecidableEq, Repr

/-- What arrives at the host port. The host owes the block to issue no action before the previous one has
completed, as the implementation's handshake (`IMPL_HANDSHAKE`) tells it (R255, U4; log 6). -/
inductive Input
  /-- An action issued after the previous one completed. -/
  | issued (a : Action)
  /-- An action issued too early: outside the contract. -/
  | early (a : Action)
  deriving DecidableEq, Repr

/-- The pseudo-instructions of the assembler (R90). They have no encoding of their own. -/
inductive Pseudo
  | clracc
  | shl (k : Nat)
  | shr (k : Nat)
  | ld8x8 (a b : Byte)
  | setcal (bias thr sub : Half) (scl : Byte)
  | table (base : Half) (n : Byte)
  deriving DecidableEq, Repr

end Sys2Proof
end

