-- ==== Sys2Proof/WellFormed.lean ====
section
/-! DEFINITION. What counts as a well-formed command word and a well-formed pseudo-instruction.
A term of `Instr` carries its operand at the width of its form (R81), so every one is a command; what can be ill-formed is a
32-bit word (a bad opcode, a reserved bit) and a pseudo-instruction (a shift count). -/

namespace Sys2Proof

/-- The (match, mask) pairs of spec/opcode_table.json, in the table's order. -/
def opcodeTable : List (Word × Word) :=
  [(0x00000000, 0xFFFFFFFF), (0x10000000, 0xFFFF0000), (0x11000000, 0xFFFFFF00), (0x12000000, 0xFFFFFF00),
   (0x13000000, 0xFFFF0000), (0x14000000, 0xFFFF0000), (0x15000000, 0xFFFF0000), (0x16000000, 0xFFFFFFFF),
   (0x17000000, 0xFFFFFFFF), (0x18000000, 0xFFFFFFFF), (0x19000000, 0xFFFFFFFF)] ++
  [(0x20000000, 0xFFFF0000), (0x21000000, 0xFFFF0000), (0x22000000, 0xFFFF0000), (0x23000000, 0xFFFFFF00),
   (0x24000000, 0xFFFF0000), (0x25000000, 0xFFFF0000), (0x26000000, 0xFFFF0000), (0x27000000, 0xFFFFFF00),
   (0x28000000, 0xFFFFFFFF), (0x30000000, 0xFFFF0000), (0x31000000, 0xFFFFFFFF), (0x32000000, 0xFFFFFFFF)]

/-- A word is well formed when it matches a row of the table. -/
def wordWellFormed (w : Word) : Bool :=
  opcodeTable.any fun row => w &&& row.2 == row.1

/-- The assembler's shift counts are 1 to 15 (R90); every other operand is in range by its type (R89). -/
def Pseudo.wellFormed : Pseudo → Bool
  | .clracc => true
  | .shl k => 1 ≤ k && k ≤ 15
  | .shr k => 1 ≤ k && k ≤ 15
  | .ld8x8 _ _ => true
  | .setcal _ _ _ _ => true
  | .table _ _ => true

end Sys2Proof
end

