-- ==== Sys2Proof/Decode.lean ====
section
/-! DEFINITION. Decoding a command word (spec/30_encoding.md R80 to R83, R85), encoding a command (R89), and the byte
transport of a word (R88). Both directions are written from the tables R80, R81 and R85. -/

namespace Sys2Proof

/-- `OPC = w[31:24]` (R80). -/
def opcField (w : Word) : Byte := w.extractLsb' 24 8
/-- `RSV = w[23:16]` (R80). -/
def rsvField (w : Word) : Byte := w.extractLsb' 16 8
/-- `IMM = w[15:0]`, the operand `imm16` (R80, R82). -/
def immField (w : Word) : Half := w.extractLsb' 0 16
/-- `IMM[15:8]`, which form `imm8` does not use (R81). -/
def immHigh (w : Word) : Byte := w.extractLsb' 8 8
/-- `imm8 = IMM[7:0]` (R82). -/
def immLow (w : Word) : Byte := w.extractLsb' 0 8

/-- A row of the opcode map: its form, and the command it makes of the operand (R85). -/
inductive Entry
  | none (i : Instr)
  | imm8 (mk : Byte → Instr)
  | imm16 (mk : Half → Instr)

/-- The form of a row (R81). -/
def Entry.form : Entry → Form
  | .none _ => .none
  | .imm8 _ => .imm8
  | .imm16 _ => .imm16

/-- The opcode map (R85). Every other `OPC` value is unassigned (R86). -/
def opcodeEntry (opc : Byte) : Option Entry :=
  match opc.toNat with
  | 0x00 => some (.none .nop)
  | 0x10 => some (.imm16 .ldacc)
  | 0x11 => some (.imm8 .ldh)
  | 0x12 => some (.imm8 .ldl)
  | 0x13 => some (.imm16 .add16)
  | 0x14 => some (.imm16 .sub16)
  | 0x15 => some (.imm16 .addw)
  | 0x16 => some (.none .mul8)
  | 0x17 => some (.none .shl1)
  | 0x18 => some (.none .shr1)
  | 0x19 => some (.none .shr4)
  | 0x20 => some (.imm16 .setbias)
  | 0x21 => some (.imm16 .setthr)
  | 0x22 => some (.imm16 .setsub)
  | 0x23 => some (.imm8 .setscl)
  | 0x24 => some (.imm16 .setper)
  | 0x25 => some (.imm16 .setlinf)
  | 0x26 => some (.imm16 .settbase)
  | 0x27 => some (.imm8 .loadtbl)
  | 0x28 => some (.none .clrerr)
  | 0x30 => some (.imm16 .lin)
  | 0x31 => some (.none .row)
  | 0x32 => some (.none .col)
  | _ => none

/-- What a word is: one command, or a rejection with one cause (R83: decoding is total). -/
inductive Decoded
  | command (i : Instr)
  | rejected (c : Cause)
  deriving DecidableEq, Repr

/-- Decoding, with the checks in the order of R83 (R213). -/
def decode (w : Word) : Decoded :=
  match opcodeEntry (opcField w) with
  | none => .rejected .illegalOpcode
  | some e =>
    if rsvField w ≠ 0 then .rejected .reservedBits
    else
      match e with
      | .none i => if immField w ≠ 0 then .rejected .reservedBits else .command i
      | .imm8 mk => if immHigh w ≠ 0 then .rejected .reservedBits else .command (mk (immLow w))
      | .imm16 mk => .command (mk (immField w))

/-- The `OPC` of a command (R85). -/
def Instr.opcode : Instr → Byte
  | .nop => 0x00
  | .ldacc _ => 0x10
  | .ldh _ => 0x11
  | .ldl _ => 0x12
  | .add16 _ => 0x13
  | .sub16 _ => 0x14
  | .addw _ => 0x15
  | .mul8 => 0x16
  | .shl1 => 0x17
  | .shr1 => 0x18
  | .shr4 => 0x19
  | .setbias _ => 0x20
  | .setthr _ => 0x21
  | .setsub _ => 0x22
  | .setscl _ => 0x23
  | .setper _ => 0x24
  | .setlinf _ => 0x25
  | .settbase _ => 0x26
  | .loadtbl _ => 0x27
  | .clrerr => 0x28
  | .lin _ => 0x30
  | .row => 0x31
  | .col => 0x32

/-- The `IMM` field of a command: its operand, zero-extended; zero for form `none` (R81, R89). -/
def Instr.imm : Instr → Half
  | .nop | .mul8 | .shl1 | .shr1 | .shr4 | .clrerr | .row | .col => 0
  | .ldh v | .ldl v | .setscl v | .loadtbl v => v.setWidth 16
  | .ldacc v | .add16 v | .sub16 v | .addw v | .setbias v | .setthr v | .setsub v | .setper v | .setlinf v
  | .settbase v | .lin v => v

/-- The form of a command (R85). -/
def Instr.form : Instr → Form
  | .nop | .mul8 | .shl1 | .shr1 | .shr4 | .clrerr | .row | .col => .none
  | .ldh _ | .ldl _ | .setscl _ | .loadtbl _ => .imm8
  | .ldacc _ | .add16 _ | .sub16 _ | .addw _ | .setbias _ | .setthr _ | .setsub _ | .setper _ | .setlinf _
  | .settbase _ | .lin _ => .imm16

/-- The word of a command: `opc << 24 | v`, with `RSV` zero (R80, R89). -/
def encode (i : Instr) : Word := i.opcode ++ (0 : Byte) ++ i.imm

/-- A word as a transport carries it: most significant byte first (R88). -/
def bytesOfWord (w : Word) : List Byte := [opcField w, rsvField w, immHigh w, immLow w]

/-- The first word of a byte stream and the bytes after it; none when fewer than four bytes have come (R88). -/
def wordOfBytes : List Byte → Option (Word × List Byte)
  | b3 :: b2 :: b1 :: b0 :: rest => some (b3 ++ b2 ++ b1 ++ b0, rest)
  | _ => none

/-- Decoding the first word of a byte stream (R83, R88). -/
def decodeBytes (bs : List Byte) : Option (Decoded × List Byte) :=
  (wordOfBytes bs).map fun p => (decode p.1, p.2)

/-- The word with the low `nbits` bits of `w` and zeros above; a command is one 32-bit unit (R88), so no byte order enters. -/
def wordOfTable (nbits w : Nat) : Word := BitVec.ofNat 32 (w % 2 ^ nbits)

/-- The command the decoder reads from the word, none where it rejects it. -/
def decodeTableWord (nbits w : Nat) : Option Instr :=
  match decode (wordOfTable nbits w) with
  | .command i => some i
  | .rejected _ => none

end Sys2Proof
end

