-- ==== Sys2Proof/Config.lean ====
section
/-! DEFINITION. What the spec fixes for the block (spec/00_scope.md R7), its one open parameter, and the one free value. -/

namespace Sys2Proof

/-- `BIAS_RESET` (R7, R45). -/
def Config.biasReset : Half := 0x225D
/-- `THRESH_RESET` (R7, R45). -/
def Config.threshReset : Half := 0x09C0
/-- `SUBTR_RESET` (R7, R45). -/
def Config.subtrReset : Half := 0x001E
/-- `SCALE_RESET` (R7, R45). -/
def Config.scaleReset : Byte := 0xB2
/-- `ROW_CLIP`, fixed (R7, R184, R185). -/
def Config.rowClip : Byte := 0x70
/-- `LIN_PASSES`, fixed (R7, R166). -/
def Config.linPasses : Nat := 2
/-- The size of `TMEM` in bytes: 2^`TMEM_ADDR_BITS` with `TMEM_ADDR_BITS = 16` (R7, R60). -/
def Config.tmemBytes : Nat := 65536

/-- The parameter `COL_BIT7_DELTA` (R7, R194, U5): which byte COL takes when control bit 7 is set.
The machine reads it from State, so every claim about all states holds for both values (log 3). -/
inductive ColBit7Delta
  /-- `delta = low8(rem >> 4) = rem[11:4]`, the default (D25). -/
  | low8OfShr4
  /-- `delta = high8(rem >> 4) = rem[15:12]`. -/
  | high8OfShr4
  deriving DecidableEq, Repr

/-- The spec's default for `COL_BIT7_DELTA` (R7, D25). -/
def Config.colBit7DeltaDefault : ColBit7Delta := .low8OfShr4

/-- FREE VALUE (R63, U2; log 1): what a byte of `TMEM` that the host has never written holds.
It depends on the address alone, so it is drawn once and a second read gives the same byte (R70). -/
opaque Config.powerUpByte : Half → Byte

end Sys2Proof
end

