-- ==== Sys2Proof/Machine/State.lean ====
section
/-! DEFINITION. The state of FWALU (spec/10_state.md, spec/20_memory.md), why a step can stop, and the state after reset. -/

namespace Sys2Proof.Machine

/-- The table memory `TMEM` as the bytes the host has written, by rising address (R60, R63; log 2).
An address that is not listed has not been written and holds no value of its own: a read of it draws `Config.powerUpByte`. -/
abbrev Memory := List Host.Cell

/-- Everything the spec gives the block, one field per register, and the two sides of its host port. -/
structure State where
  /-- `ACC`, the accumulator pair (R20). -/
  acc : Half
  /-- `C`, the carry flag (R24). -/
  c : Bool
  /-- `BIAS` (R27). -/
  bias : Half
  /-- `THRESH` (R28). -/
  thresh : Half
  /-- `SUBTR` (R29). -/
  subtr : Half
  /-- `SCALE` (R30). -/
  scale : Byte
  /-- `PERIOD` (R32). -/
  period : Half
  /-- `LINF` (R33). -/
  linf : Half
  /-- `ROWIDX` (R34). -/
  rowidx : Byte
  /-- `COLIDX` (R34). -/
  colidx : Byte
  /-- `BRKT` (R34). -/
  brkt : Byte
  /-- `TBASE` (R35). -/
  tbase : Half
  /-- `TLEN` (R35). -/
  tlen : Byte
  /-- `TVALID` (R35). -/
  tvalid : Bool
  /-- `ERR` (R36, R217). -/
  err : Bool
  /-- `ECAUSE` (R37). -/
  ecause : Byte
  /-- `TMEM` (R60). -/
  tmem : Memory
  /-- The parameter `COL_BIT7_DELTA` of this block (R7, R194; log 3). No action writes it. -/
  colBit7Delta : ColBit7Delta
  /-- The model's own: the host's actions not yet performed, oldest first (R72, R226; log 4). -/
  pending : List Input
  /-- The model's own: what `READ` has given back to the host, oldest first (R226; log 5). -/
  answers : List Half
  deriving DecidableEq, Repr

/-- The block has no trap and refuses no action (R210, R226), so a rejected command is a next state and no fault.
What remains is the host's own breach of the port's contract. -/
inductive Fault
  /-- Raised by `step` on an action issued before the previous one completed: the block is stuck and no further
  state is defined (R255, U4; log 6). Safe: the model stops where the spec defines nothing. -/
  | issuedEarly
  deriving DecidableEq, Repr

/-- No instruction of this model is refused. -/
inductive Refusal
  /-- An instruction with no meaning yet, by its mnemonic; raised by no arm of `exec`. Safe. -/
  | notModelled (mnemonic : String)
  deriving DecidableEq, Repr

/-- The state after `RESET` (R45, R240), with no byte of `TMEM` written yet, nothing pending and nothing read. -/
def State.reset : State where
  acc := 0
  c := false
  bias := Config.biasReset
  thresh := Config.threshReset
  subtr := Config.subtrReset
  scale := Config.scaleReset
  period := 0
  linf := 0
  rowidx := 0
  colidx := 0
  brkt := 0
  tbase := 0
  tlen := 0
  tvalid := false
  err := false
  ecause := 0
  tmem := []
  colBit7Delta := Config.colBit7DeltaDefault
  pending := []
  answers := []

end Sys2Proof.Machine
end

