-- ==== Sys2Proof/Machine/Operands.lean ====
section
/-! DEFINITION. The notation of the rules (spec/00_scope.md R9, R10) and the byte views of the accumulator pair (R20). -/

namespace Sys2Proof.Machine

/-- `mod16(v) = v mod 65536` (R10). -/
def mod16 (v : Nat) : Half := BitVec.ofNat 16 v

/-- `mod8(v) = v mod 256` (R10). -/
def mod8 (v : Nat) : Byte := BitVec.ofNat 8 v

/-- `high16(v) = v[31:16]` of a 32-bit value (R10). -/
def high16 (v : Word) : Half := v.extractLsb' 16 16

/-- `high8(v) = v[15:8]` of a 16-bit value (R10). -/
def high8 (v : Half) : Byte := v.extractLsb' 8 8

/-- `low8(v) = v[7:0]` of a 16-bit value (R10). -/
def low8 (v : Half) : Byte := v.extractLsb' 0 8

/-- `{h, l}`, the 16-bit value `h * 256 + l` (R9). -/
def pair (h l : Byte) : Half := h ++ l

/-- `zext_16(v)` of an 8-bit value (R10, R42). -/
def zext16 (v : Byte) : Half := v.setWidth 16

/-- `ACC.H = ACC[15:8]` (R20). -/
def State.accH (s : State) : Byte := high8 s.acc

/-- `ACC.L = ACC[7:0]` (R20). -/
def State.accL (s : State) : Byte := low8 s.acc

end Sys2Proof.Machine
end

