-- ==== Sys2Proof/Machine/Flags.lean ====
section
/-! DEFINITION. The one flag of FWALU, the carry (spec/10_state.md R24): how an add and a subtract compute it. -/

namespace Sys2Proof.Machine

/-- Carry-out of a 16-bit add: true iff the mathematical sum exceeds 65535 (R24, R104). -/
def carryOfAdd (a b : Half) : Bool := decide (a.toNat + b.toNat > 65535)

/-- Carry-out of a 16-bit subtract, the carry-on-no-borrow convention: true iff `a >= b` (R24, R105). -/
def carryOfSub (a b : Half) : Bool := decide (a.toNat ≥ b.toNat)

end Sys2Proof.Machine
end

