-- ==== Sys2Proof/Machine/Ops.lean ====
section
/-! DEFINITION. The operations that several commands share: the primitives of the FixedWidthALU (spec/40_alu.md), writing
`ACC`, the table memory and its records (spec/20_memory.md), rejecting a command and clearing the error (spec/60_exceptions.md). -/

namespace Sys2Proof.Machine

/-! The primitives (R104 to R110): the ALU commands and the three engines are written over these. -/

/-- `add16(a, b)`: the sum modulo 65536 and the carry-out (R104). -/
def add16 (a b : Half) : Half × Bool := (mod16 (a.toNat + b.toNat), carryOfAdd a b)

/-- `sub16(a, b)`: the difference modulo 65536 and the carry-out on no borrow (R105). -/
def sub16 (a b : Half) : Half × Bool := (mod16 (65536 + a.toNat - b.toNat), carryOfSub a b)

/-- The 16-bit wraparound add, without carry (R106). -/
def addWrap (a b : Half) : Half := mod16 (a.toNat + b.toNat)

/-- `mul8x8(a, b)`: the exact 16-bit product (R107, R113). -/
def mul8x8 (a b : Byte) : Half := BitVec.ofNat 16 (a.toNat * b.toNat)

/-- The exact 32-bit product of two 16-bit values (R163, R182). -/
def mul16x16 (a b : Half) : Word := BitVec.ofNat 32 (a.toNat * b.toNat)

/-- `shiftLeft1(x)`: the high bit is dropped (R108). -/
def shiftLeft1 (x : Half) : Half := mod16 (x.toNat <<< 1)

/-- Logical shift right by one (R109). -/
def shiftRight1 (x : Half) : Half := x >>> 1

/-- `shiftRight4(x)`: logical shift right by four (R110). -/
def shiftRight4 (x : Half) : Half := x >>> 4

/-! Writing the accumulator and the carry. -/

/-- `ACC <- v`, `C` unchanged (R21, R25). -/
def State.setAcc (v : Half) (s : State) : State := { s with acc := v }

/-- `ACC` and `C` from a result with its carry (R24). -/
def State.setAccCarry (r : Half × Bool) (s : State) : State := { s with acc := r.1, c := r.2 }

/-! Rejections: the block's only error path (R210). -/

/-- The cause codes of `ECAUSE` (R211). -/
def causeCode : Cause → Byte
  | .illegalOpcode => 0x01
  | .reservedBits => 0x02
  | .tableEmpty => 0x03
  | .tableOrder => 0x04
  | .noTable => 0x05

/-- `raise Reject(cause)`: writes `ERR` and `ECAUSE` and nothing else (R214). -/
def State.reject (cause : Cause) (s : State) : State := { s with err := true, ecause := causeCode cause }

/-- The return from an error: clears both and re-enables nothing (R150, R217). -/
def State.clearError (s : State) : State := { s with err := false, ecause := 0x00 }

/-! The table memory. -/

/-- The byte the host wrote at an address, none if it has written none (R63). -/
def Memory.find : Memory → Nat → Option Byte
  | [], _ => none
  | (k, v) :: m, a => if k = a then some v else Memory.find m a

/-- Setting one byte, in rising order of addresses (R61). -/
def Memory.put : Memory → Nat → Byte → Memory
  | [], a, v => [(a, v)]
  | (k, w) :: m, a, v =>
    if a < k then (a, v) :: (k, w) :: m
    else if a = k then (a, v) :: m
    else (k, w) :: Memory.put m a v

/-- Addresses strictly rising from `lo` on, all of them in `TMEM`. -/
def Memory.wfFrom : Nat → Memory → Bool
  | _, [] => true
  | lo, (k, _) :: m => decide (lo ≤ k) && decide (k < Config.tmemBytes) && Memory.wfFrom (k + 1) m

/-- The canonical form of the table memory (log 2). -/
def Memory.wf (m : Memory) : Bool := Memory.wfFrom 0 m

/-- `MemRead(addr, 1)`: the byte at `mod16(addr)` (R12); a never-written byte is a free value (R63, U2; log 1). -/
def State.memRead1 (s : State) (addr : Nat) : Byte :=
  (Memory.find s.tmem (mod16 addr).toNat).getD (Config.powerUpByte (mod16 addr))

/-- `MemRead(addr, 2)`: big-endian (R12, R65). -/
def State.memRead2 (s : State) (addr : Nat) : Half := pair (s.memRead1 addr) (s.memRead1 (addr + 1))

/-- `rec(i, k) = mod16(TBASE + 4*i + k)` (R64). -/
def State.recAddr (s : State) (i k : Nat) : Nat := (mod16 (s.tbase.toNat + 4 * i + k)).toNat

/-- `speedThreshold(i)` (R64). -/
def State.threshold (s : State) (i : Nat) : Half := s.memRead2 (s.recAddr i 0)

/-- `controlByte(i)` (R64). -/
def State.controlByte (s : State) (i : Nat) : Byte := s.memRead1 (s.recAddr i 2)

/-- `multiplier(i)` (R64). -/
def State.multiplier (s : State) (i : Nat) : Byte := s.memRead1 (s.recAddr i 3)

/-- Is `a` a byte of the table: `a = rec(i, k)` for some `i < TLEN`, `k ≤ 3` (R66)? -/
def State.inTable (s : State) (a : Half) : Bool :=
  (List.range s.tlen.toNat).any fun i => (List.range 4).any fun k => s.recAddr i k == a.toNat

/-- A host write of one byte of `TMEM`; one into the validated table invalidates it (R62, R66). -/
def State.tableWrite (a : Half) (v : Byte) (s : State) : State :=
  { s with tmem := Memory.put s.tmem a.toNat v, tvalid := s.tvalid && !s.inTable a }

/-! The register read port. -/

/-- `STATUS`, assembled from `C`, `TVALID` and `ERR`; bits 7:3 read 0 (R36). -/
def State.status (s : State) : Byte := mod8 (s.c.toNat + 2 * s.tvalid.toNat + 4 * s.err.toNat)

/-- The register map: the 16-bit value a register number reads (R42). -/
def State.readReg (s : State) (r : Byte) : Half :=
  match r.toNat with
  | 0x00 => s.acc
  | 0x01 => zext16 s.status
  | 0x02 => zext16 s.ecause
  | 0x03 => s.bias
  | 0x04 => s.thresh
  | 0x05 => s.subtr
  | 0x06 => zext16 s.scale
  | 0x07 => s.period
  | 0x08 => s.linf
  | 0x09 => zext16 s.rowidx
  | 0x0A => zext16 s.colidx
  | 0x0B => zext16 s.brkt
  | 0x0C => s.tbase
  | 0x0D => zext16 s.tlen
  | _ => 0x0000

/-! Reset. -/

/-- The `RESET` action on a running block: every register as R45 says, `TMEM` kept (R240, R241).
The block's parameter and the two sides of the host port are no registers and stay. -/
def State.resetRegisters (s : State) : State :=
  { State.reset with
    tmem := s.tmem, colBit7Delta := s.colBit7Delta, pending := s.pending, answers := s.answers }

end Sys2Proof.Machine
end

