-- ==== Sys2Proof/Machine/Alu.lean ====
section
/-! DEFINITION. The meanings of the ALU commands and NOP (spec/40_alu.md R100 to R110). Each is total: no ALU command is
rejected once it decodes (R212). -/

namespace Sys2Proof.Machine

/-- The outcome of a step of this machine. -/
abbrev Result := Host.Outcome State Fault Refusal

/-- NOP: no state changes (R100). -/
def execNop (s : State) : Result := .next s

/-- LDACC: `ACC <- imm16` (R101). -/
def execLdacc (imm : Half) (s : State) : Result := .next (s.setAcc imm)

/-- LDH: `ACC <- {imm8, ACC.L}` (R102). -/
def execLdh (imm : Byte) (s : State) : Result := .next (s.setAcc (pair imm s.accL))

/-- LDL: `ACC <- {ACC.H, imm8}` (R103). -/
def execLdl (imm : Byte) (s : State) : Result := .next (s.setAcc (pair s.accH imm))

/-- ADD16: 16-bit add with carry-out; the old `C` is not read (R104). -/
def execAdd16 (imm : Half) (s : State) : Result := .next (s.setAccCarry (add16 s.acc imm))

/-- SUB16: 16-bit subtract with carry-out on no borrow (R105). -/
def execSub16 (imm : Half) (s : State) : Result := .next (s.setAccCarry (sub16 s.acc imm))

/-- ADDW: 16-bit wraparound add, `C` unchanged (R106). -/
def execAddw (imm : Half) (s : State) : Result := .next (s.setAcc (addWrap s.acc imm))

/-- MUL8: `ACC <- ACC.H * ACC.L`, exact (R107). -/
def execMul8 (s : State) : Result := .next (s.setAcc (mul8x8 s.accH s.accL))

/-- SHL1: logical shift left by one (R108). -/
def execShl1 (s : State) : Result := .next (s.setAcc (shiftLeft1 s.acc))

/-- SHR1: logical shift right by one (R109). -/
def execShr1 (s : State) : Result := .next (s.setAcc (shiftRight1 s.acc))

/-- SHR4: logical shift right by four (R110). -/
def execShr4 (s : State) : Result := .next (s.setAcc (shiftRight4 s.acc))

end Sys2Proof.Machine
end

