-- ==== Sys2Proof/Machine/Index.lean ====
section
/-! DEFINITION. The index engines and the meanings of ROW and COL (spec/43_index.md R180 to R200). -/

namespace Sys2Proof.Machine

/-! ROW. -/

/-- `product = high16(PERIOD * LINF)` (R182). -/
def rowProduct (period linf : Half) : Half := high16 (mul16x16 period linf)

/-- `scaled = high8(low8(d) * SCALE)` (R185). -/
def rowScaled (scale : Byte) (d : Half) : Byte := high8 (mul8x8 (low8 d) scale)

/-- The two clip tests, kept apart (R184, R185). -/
def rowClipped (scale : Byte) (d : Half) : Byte :=
  if high8 d ≠ 0 then Config.rowClip
  else if (rowScaled scale d).toNat ≤ Config.rowClip.toNat then rowScaled scale d
  else Config.rowClip

/-- `rowIndex`: 0 on the borrow of `sub16(product, SUBTR)`, else the clipped scaled value (R180, R181, R183). -/
def rowIndex (period linf subtr : Half) (scale : Byte) : Byte :=
  let r := sub16 (rowProduct period linf) subtr
  if r.2 then rowClipped scale (shiftRight1 r.1) else 0x00

/-- ROW: `ROWIDX <- rowIndex`, and nothing else (R180). -/
def execRow (s : State) : Result :=
  .next { s with rowidx := rowIndex s.period s.linf s.subtr s.scale }

/-! COL. -/

/-- Where the scan terminated: the record, the countdown there, and the remainder (R39, R193). -/
structure ColStop where
  i : Nat
  cnt : Nat
  rem : Half
  deriving DecidableEq, Repr

/-- The test of one record: the remainder and the carry of `sub16(T, PERIOD)` (R193). -/
def State.colTest (s : State) (i : Nat) : Half × Bool := sub16 (s.threshold i) s.period

/-- The scan from record `i` with countdown `cnt`; none when the countdown would go negative (R191, R197). -/
def State.colScan (s : State) : Nat → Nat → Option ColStop
  | 0, i => if (s.colTest i).2 then some { i, cnt := 0, rem := (s.colTest i).1 } else none
  | cnt + 1, i =>
    if (s.colTest i).2 then some { i, cnt := cnt + 1, rem := (s.colTest i).1 } else s.colScan cnt (i + 1)

/-- The three-way choice of the delta by the control byte (R194); `p` is `COL_BIT7_DELTA` (log 3). -/
def colDelta (p : ColBit7Delta) (control : Byte) (rem : Half) : Byte :=
  if control.getLsbD 7 then
    match p with
    | .low8OfShr4 => low8 (shiftRight4 rem)
    | .high8OfShr4 => high8 (shiftRight4 rem)
  else if control.getLsbD 6 then high8 rem
  else low8 rem

/-- `up = mod8(cnt << 4)` (R198). -/
def colUpper (cnt : Nat) : Byte := mod8 (cnt <<< 4)

/-- `weighted = high8(delta * multiplier)` at the terminating record (R195). -/
def State.colWeighted (s : State) (t : ColStop) : Byte :=
  high8 (mul8x8 (colDelta s.colBit7Delta (s.controlByte t.i) t.rem) (s.multiplier t.i))

/-- `columnIndex`: the pair (`COLIDX`, `BRKT`), or the sentinel (0, 0) when the scan is exhausted (R196, R197).
The countdown starts at `TLEN - 1` in 8 bits (R197; log 12). -/
def State.columnIndex (s : State) : Byte × Byte :=
  match s.colScan (s.tlen - 1).toNat 0 with
  | none => (0x00, 0x00)
  | some t => (colUpper t.cnt ||| s.colWeighted t, colUpper t.cnt)

/-- COL: rejected without a validated table, else `COLIDX` and `BRKT` (R190, R199). -/
def execCol (s : State) : Result :=
  if s.tvalid then .next { s with colidx := s.columnIndex.1, brkt := s.columnIndex.2 }
  else .next (s.reject .noTable)

end Sys2Proof.Machine
end

