-- ==== Sys2Proof/Machine/Linearizer.lean ====
section
/-! DEFINITION. The linearizer engine and the meaning of LIN (spec/42_linearizer.md R160 to R167). -/

namespace Sys2Proof.Machine

/-- The one-shot phase flag, the source's X00CE as two states (R38, R166). -/
inductive Phase
  | first
  | second
  deriving DecidableEq, Repr

/-- The linearizer's scratch during one LIN (R38); it does not outlive the command (R40; log 8). -/
structure LinScratch where
  x : Half
  phase : Phase
  deriving DecidableEq, Repr

/-- `sq(x) = high16(x * x)` (R163). -/
def linSquare (x : Half) : Half := high16 (mul16x16 x x)

/-- The threshold adjustment: strict unsigned comparison with `THRESH >> 1`, and a reduction to 16 bits at each step
(R162, R165). -/
def linAdjust (thresh x : Half) : Half :=
  if (shiftRight1 thresh).toNat < x.toNat then shiftLeft1 (sub16 (shiftLeft1 x) thresh).1 else 0

/-- One pass: square, and on the first pass alone adjust (R165, R166). -/
def linPass (thresh : Half) (l : LinScratch) : LinScratch :=
  match l.phase with
  | .first => { x := linAdjust thresh (linSquare l.x), phase := .second }
  | .second => { x := linSquare l.x, phase := .second }

/-- The loop, a given number of passes (R166). -/
def linLoop (thresh : Half) : Nat → LinScratch → LinScratch
  | 0, l => l
  | n + 1, l => linLoop thresh n (linPass thresh l)

/-- Step 1: `mod16(mod16(sensorSum << 3) + BIAS)` (R161). -/
def linStart (bias sensorSum : Half) : Half := addWrap (mod16 (sensorSum.toNat <<< 3)) bias

/-- `linearize`: the value after the second squaring (R160, R167). -/
def linearize (bias thresh sensorSum : Half) : Half :=
  (linLoop thresh Config.linPasses { x := linStart bias sensorSum, phase := .first }).x

/-- LIN: `LINF <- linearize(sensorSum)`, and nothing else (R160, R167). -/
def execLin (sensorSum : Half) (s : State) : Result :=
  .next { s with linf := linearize s.bias s.thresh sensorSum }

end Sys2Proof.Machine
end

