-- ==== Sys2Proof/Machine/Settings.lean ====
section
/-! DEFINITION. The meanings of the configuration, input and table-load commands and of CLRERR (spec/41_config.md). -/

namespace Sys2Proof.Machine

/-- SETBIAS: `BIAS <- imm16` (R130). -/
def execSetbias (imm : Half) (s : State) : Result := .next { s with bias := imm }

/-- SETTHR: `THRESH <- imm16` (R131). -/
def execSetthr (imm : Half) (s : State) : Result := .next { s with thresh := imm }

/-- SETSUB: `SUBTR <- imm16` (R132). -/
def execSetsub (imm : Half) (s : State) : Result := .next { s with subtr := imm }

/-- SETSCL: `SCALE <- imm8` (R133). -/
def execSetscl (imm : Byte) (s : State) : Result := .next { s with scale := imm }

/-- SETPER: `PERIOD <- imm16` (R134). -/
def execSetper (imm : Half) (s : State) : Result := .next { s with period := imm }

/-- SETLINF: `LINF <- imm16` (R135). -/
def execSetlinf (imm : Half) (s : State) : Result := .next { s with linf := imm }

/-- SETTBASE: `TBASE <- imm16; TVALID <- 0`; `TLEN` unchanged (R136). -/
def execSettbase (imm : Half) (s : State) : Result := .next { s with tbase := imm, tvalid := false }

/-- LOADTBL's check of `n` records: no threshold is greater than the next one's (R140, R142). -/
def State.tableOrdered (s : State) (n : Nat) : Bool :=
  (List.range (n - 1)).all fun i => decide ((s.threshold i).toNat ≤ (s.threshold (i + 1)).toNat)

/-- LOADTBL: validate and load the bracket table (R140 to R144). -/
def execLoadtbl (n : Byte) (s : State) : Result :=
  if n = 0 then .next (s.reject .tableEmpty)
  else if s.tableOrdered n.toNat then .next { s with tlen := n, tvalid := true }
  else .next (s.reject .tableOrder)

/-- CLRERR: `ERR <- 0; ECAUSE <- 0x00` (R150). -/
def execClrerr (s : State) : Result := .next s.clearError

end Sys2Proof.Machine
end

