-- ==== Sys2Proof/Machine/Dispatch.lean ====
section
/-! DEFINITION. What each command does: one arm per constructor of Instr. -/

namespace Sys2Proof.Machine

def exec (i : Instr) (s : State) : Host.Outcome State Fault Refusal :=
  match i with
  | .nop => Sys2Proof.Machine.execNop s
  | .ldacc imm => Sys2Proof.Machine.execLdacc imm s
  | .ldh imm => Sys2Proof.Machine.execLdh imm s
  | .ldl imm => Sys2Proof.Machine.execLdl imm s
  | .add16 imm => Sys2Proof.Machine.execAdd16 imm s
  | .sub16 imm => Sys2Proof.Machine.execSub16 imm s
  | .addw imm => Sys2Proof.Machine.execAddw imm s
  | .mul8 => Sys2Proof.Machine.execMul8 s
  | .shl1 => Sys2Proof.Machine.execShl1 s
  | .shr1 => Sys2Proof.Machine.execShr1 s
  | .shr4 => Sys2Proof.Machine.execShr4 s
  | .setbias imm => Sys2Proof.Machine.execSetbias imm s
  | .setthr imm => Sys2Proof.Machine.execSetthr imm s
  | .setsub imm => Sys2Proof.Machine.execSetsub imm s
  | .setscl imm => Sys2Proof.Machine.execSetscl imm s
  | .setper imm => Sys2Proof.Machine.execSetper imm s
  | .setlinf imm => Sys2Proof.Machine.execSetlinf imm s
  | .settbase imm => Sys2Proof.Machine.execSettbase imm s
  | .loadtbl n => Sys2Proof.Machine.execLoadtbl n s
  | .clrerr => Sys2Proof.Machine.execClrerr s
  | .lin sensorSum => Sys2Proof.Machine.execLin sensorSum s
  | .row => Sys2Proof.Machine.execRow s
  | .col => Sys2Proof.Machine.execCol s

end Sys2Proof.Machine
end

