-- ==== Sys2Proof/Machine/HostPort.lean ====
section
/-! DEFINITION. The host's actions (spec/60_exceptions.md R226): SUBMIT, READ, TWRITE and RESET. -/

namespace Sys2Proof.Machine

/-- SUBMIT: the word decodes to a command, which executes, or is rejected with one cause (R83, R210, R226). -/
def hostSubmit (w : Word) (s : State) : Result :=
  match decode w with
  | .command i => exec i s
  | .rejected c => .next (s.reject c)

/-- READ: the host gets the register's value back; the block changes nothing (R43, R226; log 5). -/
def hostRead (r : Byte) (s : State) : Result := .next { s with answers := s.answers ++ [s.readReg r] }

/-- TWRITE: one byte of the table memory (R62, R66, R226). -/
def hostTwrite (a : Half) (v : Byte) (s : State) : Result := .next (s.tableWrite a v)

/-- RESET (R226, R240, R241). -/
def hostReset (s : State) : Result := .next s.resetRegisters

/-- One host action, performed whole (R72, R226). -/
def perform (a : Action) (s : State) : Result :=
  match a with
  | .submit w => hostSubmit w s
  | .read r => hostRead r s
  | .twrite a v => hostTwrite a v s
  | .reset => hostReset s

/-- Actions performed one after another in the order given, each complete before the next (R72, R226). -/
def performAll : List Action → State → Result
  | [], s => .next s
  | a :: as, s =>
    match perform a s with
    | .next t => performAll as t
    | .fault r => .fault r
    | .refused r => .refused r

/-- What the block does about its oldest input: an action performs, one issued too early leaves the block stuck
(U4; log 6). -/
def accept (inp : Input) (s : State) : Result :=
  match inp with
  | .issued a => perform a s
  | .early _ => .fault .issuedEarly

end Sys2Proof.Machine
end

