-- ==== Sys2Proof/Machine/Step.lean ====
section
/-! DEFINITION. One step of the machine: the oldest pending host action (spec/20_memory.md R72). There is no program counter
and no fetch (R41): the next command is the next SUBMIT at the host port. -/

namespace Sys2Proof.Machine

/-- One step: performs the oldest pending action; with none pending the block holds its state (R72, R228; log 4). -/
def step (s : State) : Host.Outcome State Fault Refusal :=
  match s.pending with
  | [] => .next s
  | inp :: rest => accept inp { s with pending := rest }

/-- The state in which the very next action is the SUBMIT of that word: the host has put it at the port, before what else
is pending (log 4). -/
def State.withFetchWord (s : State) (nbits w : Nat) : State :=
  { s with pending := .issued (.submit (wordOfTable nbits w)) :: s.pending }

end Sys2Proof.Machine
end

