-- ==== Sys2Proof/Machine/Assembler.lean ====
section
/-! DEFINITION. The assembler's notation (spec/30_encoding.md R89, R90): pseudo-instructions and their expansions, and reading a
line of source. The block itself receives only the resulting words. -/

namespace Sys2Proof.Machine

/-- The exact expansion of a pseudo-instruction (R90). -/
def expand : Pseudo → List Instr
  | .clracc => [.ldacc 0x0000]
  | .shl k => List.replicate k .shl1
  | .shr k => List.replicate (k / 4) .shr4 ++ List.replicate (k % 4) .shr1
  | .ld8x8 a b => [.ldh a, .ldl b]
  | .setcal bias thr sub scl => [.setbias bias, .setthr thr, .setsub sub, .setscl scl]
  | .table base n => [.settbase base, .loadtbl n]

/-- Commands submitted one after another, each complete before the next (R72, R84). -/
def execAll : List Instr → State → Result
  | [], s => .next s
  | i :: is, s =>
    match exec i s with
    | .next t => execAll is t
    | .fault r => .fault r
    | .refused r => .refused r

/-! Operands (R89): an assembler refuses a value that does not fit the form. -/

/-- A value as an `imm8` operand. -/
def asImm8 (v : Nat) : Option Byte := if v ≤ 0xFF then some (BitVec.ofNat 8 v) else none

/-- A value as an `imm16` operand. -/
def asImm16 (v : Nat) : Option Half := if v ≤ 0xFFFF then some (BitVec.ofNat 16 v) else none

/-- A core command from its row and the operands written; a missing or an extra operand is refused (R89). -/
def assembleCommand : Entry → List Nat → Option Instr
  | .none i, [] => some i
  | .imm8 mk, [v] => (asImm8 v).map mk
  | .imm16 mk, [v] => (asImm16 v).map mk
  | _, _ => none

/-- The opcodes by mnemonic (R85). -/
def mnemonicTable : List (List Char × Byte) :=
  [("NOP".toList, 0x00), ("LDACC".toList, 0x10), ("LDH".toList, 0x11), ("LDL".toList, 0x12), ("ADD16".toList, 0x13),
   ("SUB16".toList, 0x14), ("ADDW".toList, 0x15), ("MUL8".toList, 0x16), ("SHL1".toList, 0x17), ("SHR1".toList, 0x18),
   ("SHR4".toList, 0x19)] ++
  [("SETBIAS".toList, 0x20), ("SETTHR".toList, 0x21), ("SETSUB".toList, 0x22), ("SETSCL".toList, 0x23),
   ("SETPER".toList, 0x24), ("SETLINF".toList, 0x25), ("SETTBASE".toList, 0x26), ("LOADTBL".toList, 0x27),
   ("CLRERR".toList, 0x28), ("LIN".toList, 0x30), ("ROW".toList, 0x31), ("COL".toList, 0x32)]

/-- A pseudo-instruction from its name and operands (R90); one with a shift count outside 1 to 15 is refused. -/
def assemblePseudo (name : List Char) (operands : List Nat) : Option Pseudo :=
  if name = "CLRACC".toList then (if operands = [] then some .clracc else none)
  else if name = "SHL".toList then
    match operands with
    | [k] => if (Pseudo.shl k).wellFormed then some (.shl k) else none
    | _ => none
  else if name = "SHR".toList then
    match operands with
    | [k] => if (Pseudo.shr k).wellFormed then some (.shr k) else none
    | _ => none
  else if name = "LD8X8".toList then
    match operands with
    | [a, b] => do return .ld8x8 (← asImm8 a) (← asImm8 b)
    | _ => none
  else if name = "SETCAL".toList then
    match operands with
    | [b, t, u, c] => do return .setcal (← asImm16 b) (← asImm16 t) (← asImm16 u) (← asImm8 c)
    | _ => none
  else if name = "TABLE".toList then
    match operands with
    | [b, n] => do return .table (← asImm16 b) (← asImm8 n)
    | _ => none
  else none

/-- The commands of one written instruction: a core command, or the expansion of a pseudo-instruction (R89, R90). -/
def assemble (name : List Char) (operands : List Nat) : Option (List Instr) :=
  match mnemonicTable.lookup name with
  | some opc => (opcodeEntry opc).bind fun e => (assembleCommand e operands).map fun i => [i]
  | none => (assemblePseudo name operands).map expand

/-! Reading a line (R89; what the rule does not fix is in log 10). -/

/-- The value of a digit, 0 to 15. -/
def digitValue (ch : Char) : Option Nat :=
  let v := ch.toNat
  if 48 ≤ v ∧ v ≤ 57 then some (v - 48)
  else if 65 ≤ v ∧ v ≤ 70 then some (v - 55)
  else if 97 ≤ v ∧ v ≤ 102 then some (v - 87)
  else none

/-- Digits of a base, most significant first. -/
def readDigits (base acc : Nat) : List Char → Option Nat
  | [] => some acc
  | ch :: rest =>
    match digitValue ch with
    | some d => if d < base then readDigits base (acc * base + d) rest else none
    | none => none

/-- A number: `0x` and hexadecimal digits, or decimal digits (R89). -/
def readNumber : List Char → Option Nat
  | [] => none
  | '0' :: 'x' :: d :: rest => readDigits 16 0 (d :: rest)
  | d :: rest => readDigits 10 0 (d :: rest)

/-- An operand: `#v` (R89). -/
def readOperand : List Char → Option Nat
  | '#' :: rest => readNumber rest
  | _ => none

/-- The pieces of a text between separators, empty pieces kept. -/
def pieces (sep : Char → Bool) : List Char → List (List Char)
  | [] => [[]]
  | ch :: rest =>
    match pieces sep rest with
    | [] => [[ch]]
    | p :: ps => if sep ch then [] :: p :: ps else (ch :: p) :: ps

/-- White space inside a line. -/
def isBlank (ch : Char) : Bool := ch == ' ' || ch == '\t' || ch == '\r'

/-- A text without the white space around it. -/
def trim (t : List Char) : List Char := ((t.dropWhile isBlank).reverse.dropWhile isBlank).reverse

/-- The commands of one line: `;` begins a comment, a blank line holds none; none for a line that is refused (R89). -/
def assembleLine (line : List Char) : Option (List Instr) :=
  let text := trim (line.takeWhile fun ch => ch != ';')
  let name := text.takeWhile fun ch => !isBlank ch
  let rest := trim (text.dropWhile fun ch => !isBlank ch)
  if text = [] then some []
  else if rest = [] then assemble name []
  else ((pieces (fun ch => ch == ',') rest).mapM fun t => readOperand (trim t)).bind (assemble name)

/-- The words of a source text, one instruction a line (R89). -/
def assembleText (text : List Char) : Option (List Word) :=
  ((pieces (fun ch => ch == '\n') text).mapM assembleLine).map fun ls => ls.flatten.map encode

end Sys2Proof.Machine
end

