-- ==== Sys2Proof/Safety.lean ====
section
/-! DEFINITION. The terms the claims about runs use: the invariant of the block, and a host that keeps the port's contract. -/

namespace Sys2Proof.Machine

/-- What holds after reset and is kept by every action. -/
structure State.Inv (s : State) : Prop where
  /-- `TMEM` is in its canonical form (log 2). -/
  memWf : Memory.wf s.tmem = true
  /-- A valid table has a record (R35, R146). -/
  tableNonempty : s.tvalid = true → 1 ≤ s.tlen.toNat
  /-- A valid table has non-decreasing thresholds in the current table memory (R146). -/
  tableSorted : s.tvalid = true → ∀ i, i + 1 < s.tlen.toNat →
    (s.threshold i).toNat ≤ (s.threshold (i + 1)).toNat
  /-- `ROWIDX` is clipped (R34, R186). -/
  rowClipped : s.rowidx.toNat ≤ 0x70
  /-- `ECAUSE` holds 0x00 to 0x05 only (R37). -/
  causeLegal : s.ecause.toNat ≤ 5
  /-- `ERR` is set exactly while `ECAUSE` names a cause (R36, R37, R214, R217). -/
  errHasCause : s.err = true ↔ s.ecause ≠ 0
  /-- `BRKT` is an upper nibble (R196, R198). -/
  brktNibble : s.brkt.toNat % 16 = 0
  /-- `COLIDX` has every bit of `BRKT`: the weight is merged by OR (R196). -/
  brktInCol : s.colidx &&& s.brkt = s.brkt

/-- The host issued no pending action too early (R255). -/
def State.HandshakeKept (s : State) : Prop := ∀ a, Input.early a ∉ s.pending

/-! What each command's rule says of its encoding and of the decode rejection it lists, by the form of its opcode. -/

/-- `OPC = opc`, form `none`: the one word with `w[23:0] = 0` is the command, every other is rejected (R81, R83). -/
def CodedNone (opc : Nat) (i : Instr) : Prop :=
  ∀ w : Word, w.toNat / 0x1000000 = opc →
    (w.toNat % 0x1000000 = 0 → decode w = .command i) ∧
    (w.toNat % 0x1000000 ≠ 0 → decode w = .rejected .reservedBits)

/-- `OPC = opc`, form `imm8`: the operand is `w[7:0]`; a word with `w[23:8] != 0` is rejected (R81, R83). -/
def CodedImm8 (opc : Nat) (mk : Byte → Instr) : Prop :=
  ∀ w : Word, w.toNat / 0x1000000 = opc →
    (w.toNat / 0x100 % 0x10000 = 0 → decode w = .command (mk (BitVec.ofNat 8 w.toNat))) ∧
    (w.toNat / 0x100 % 0x10000 ≠ 0 → decode w = .rejected .reservedBits)

/-- `OPC = opc`, form `imm16`: the operand is `w[15:0]`; a word with `w[23:16] != 0` is rejected (R81, R83). -/
def CodedImm16 (opc : Nat) (mk : Half → Instr) : Prop :=
  ∀ w : Word, w.toNat / 0x1000000 = opc →
    (w.toNat / 0x10000 % 0x100 = 0 → decode w = .command (mk (BitVec.ofNat 16 w.toNat))) ∧
    (w.toNat / 0x10000 % 0x100 ≠ 0 → decode w = .rejected .reservedBits)

/-! The rules' values as plain numbers, for the claims: exact arithmetic on naturals, each reduction written out (R10). -/

/-- Byte `k` of record `i`, at `mod16(TBASE + 4*i + k)` (R64). -/
def State.recordByte (s : State) (i k : Nat) : Nat := (s.memRead1 (s.tbase.toNat + 4 * i + k)).toNat

/-- The threshold of record `i`, big-endian (R64, R65). -/
def State.recordThreshold (s : State) (i : Nat) : Nat := 256 * s.recordByte i 0 + s.recordByte i 1

/-- `high16(x * x)` (R163). -/
def squareHigh (x : Nat) : Nat := x * x / 65536

/-- The first pass's adjustment, three reductions modulo 65536 (R162, R165). -/
def adjusted (thresh x : Nat) : Nat :=
  if thresh / 2 < x then ((2 * x % 65536 + 65536 - thresh) % 65536 * 2) % 65536 else 0

/-- The result of LIN (R160, R161, R167). -/
def linResult (bias thresh sensorSum : Nat) : Nat :=
  squareHigh (adjusted thresh (squareHigh ((sensorSum * 8 % 65536 + bias) % 65536)))

/-- The result of ROW from the product and the two calibration values (R181 to R185). -/
def rowResult (product subtr scale : Nat) : Nat :=
  if product < subtr then 0
  else if (product - subtr) / 2 / 256 ≠ 0 then 0x70
  else min ((product - subtr) / 2 % 256 * scale / 256) 0x70

/-- The delta of COL (R194). -/
def deltaResult (p : ColBit7Delta) (control rem : Nat) : Nat :=
  if 0x80 ≤ control then
    match p with
    | .low8OfShr4 => rem / 16 % 256
    | .high8OfShr4 => rem / 16 / 256
  else if 0x40 ≤ control then rem / 256
  else rem % 256

/-- Record `i` is where the scan for `PERIOD` ends: the first whose threshold is at or above it (R191, R193). -/
def State.EndsAt (s : State) (i : Nat) : Prop :=
  i < s.tlen.toNat ∧ s.period.toNat ≤ s.recordThreshold i ∧
    ∀ j, j < i → s.recordThreshold j < s.period.toNat

end Sys2Proof.Machine
end

