-- ==== Sys2Proof/Certificates/Slice0/Obligations.lean ====
section
/-! DEFINITION. The statements for the provers. A statement of the form `t = { s with f := t.f, … }` is a frame: only the named
fields of the state may differ, so every other register and all of `TMEM` is unchanged. -/

open Sys2Proof Sys2Proof.Machine

/-! Encoding (spec/30_encoding.md). -/

/-- R91: every worked encoding decodes to its command, and the four bad words are rejected with their causes. -/
def Obligations.WorkedEncodingsDecode : Prop :=
  (decode 0x00000000 = .command .nop ∧ decode 0x10001234 = .command (.ldacc 0x1234) ∧
    decode 0x110000AB = .command (.ldh 0xAB) ∧ decode 0x120000CD = .command (.ldl 0xCD) ∧
    decode 0x13000001 = .command (.add16 0x0001) ∧ decode 0x140009C0 = .command (.sub16 0x09C0) ∧
    decode 0x1500225D = .command (.addw 0x225D) ∧ decode 0x16000000 = .command .mul8 ∧
    decode 0x17000000 = .command .shl1 ∧ decode 0x18000000 = .command .shr1 ∧
    decode 0x19000000 = .command .shr4) ∧
  (decode 0x2000225D = .command (.setbias 0x225D) ∧ decode 0x210009C0 = .command (.setthr 0x09C0) ∧
    decode 0x2200001E = .command (.setsub 0x001E) ∧ decode 0x230000B2 = .command (.setscl 0xB2) ∧
    decode 0x24001000 = .command (.setper 0x1000) ∧ decode 0x25000978 = .command (.setlinf 0x0978) ∧
    decode 0x26000100 = .command (.settbase 0x0100) ∧ decode 0x27000010 = .command (.loadtbl 16) ∧
    decode 0x28000000 = .command .clrerr ∧ decode 0x300003FF = .command (.lin 0x03FF) ∧
    decode 0x31000000 = .command .row ∧ decode 0x32000000 = .command .col) ∧
  (decode 0x01000000 = .rejected .illegalOpcode ∧ decode 0x16000001 = .rejected .reservedBits ∧
    decode 0x11000100 = .rejected .reservedBits ∧ decode 0x10010000 = .rejected .reservedBits)

/-- R80, R81, R85: no bit of a command is lost between its word and its decoding, for every command and operand. -/
def Obligations.DecodeOfEncode : Prop := ∀ i : Instr, decode (encode i) = .command i

/-- R81 (strict checking): a word that decodes to a command is the one word of that command. -/
def Obligations.EncodeOfDecode : Prop := ∀ (w : Word) (i : Instr), decode w = .command i → encode i = w

/-- R83 with the forms of R81 and R85: which words are rejected, with which cause, and what the others execute. -/
def Obligations.DecodeChecksInOrder : Prop :=
  ∀ w : Word,
    let opc := w.toNat / 0x1000000
    let rsv := w.toNat / 0x10000 % 0x100
    let imm := w.toNat % 0x10000
    let noneForm := [0x00, 0x16, 0x17, 0x18, 0x19, 0x28, 0x31, 0x32]
    let imm8Form := [0x11, 0x12, 0x23, 0x27]
    let imm16Form := [0x10, 0x13, 0x14, 0x15, 0x20, 0x21, 0x22, 0x24, 0x25, 0x26, 0x30]
    let assigned := opc ∈ noneForm ∨ opc ∈ imm8Form ∨ opc ∈ imm16Form
    let reserved := rsv ≠ 0 ∨ (opc ∈ noneForm ∧ imm ≠ 0) ∨ (opc ∈ imm8Form ∧ imm / 0x100 ≠ 0)
    (¬assigned → decode w = .rejected .illegalOpcode) ∧
    (assigned → reserved → decode w = .rejected .reservedBits) ∧
    (assigned → ¬reserved → ∃ i, decode w = .command i ∧ i.opcode.toNat = opc ∧ i.imm.toNat = imm)

/-- R86: the unassigned opcodes, their number, and that exactly they are rejected with ILLEGAL_OPCODE. -/
def Obligations.UnassignedOpcodesAreIllegal : Prop :=
  let unassigned := fun opc : Nat =>
    (0x01 ≤ opc ∧ opc ≤ 0x0F) ∨ (0x1A ≤ opc ∧ opc ≤ 0x1F) ∨ (0x29 ≤ opc ∧ opc ≤ 0x2F) ∨ (0x33 ≤ opc ∧ opc ≤ 0xFF)
  (∀ w : Word, decode w = .rejected .illegalOpcode ↔ unassigned (w.toNat / 0x1000000)) ∧
  ((List.range 256).filter fun opc => decide (unassigned opc)).length = 233

/-- The decoder accepts exactly the words that match a row of spec/opcode_table.json. -/
def Obligations.DecoderAcceptsTheTablesWords : Prop :=
  ∀ w : Word, (∃ i, decode w = .command i) ↔ wordWellFormed w = true

/-- No word matches two rows of spec/opcode_table.json. -/
def Obligations.OpcodeTableRowsAreDisjoint : Prop :=
  ∀ (w : Word) (r q : Word × Word), r ∈ opcodeTable → q ∈ opcodeTable →
    w &&& r.2 = r.1 → w &&& q.2 = q.1 → r = q

/-- R88: a transport carries the most significant byte first, and the block gets the word back. -/
def Obligations.TransportCarriesHighByteFirst : Prop :=
  ∀ (w : Word) (rest : List Byte),
    (bytesOfWord w).map BitVec.toNat =
      [w.toNat / 0x1000000, w.toNat / 0x10000 % 0x100, w.toNat / 0x100 % 0x100, w.toNat % 0x100] ∧
    wordOfBytes (bytesOfWord w ++ rest) = some (w, rest)

/-! Steps and host actions (spec/60_exceptions.md, spec/20_memory.md). -/

/-- R83, R72: when the oldest action submits a word that decodes to a command, the step is `exec` of that command on the
state with the action taken off the port; a word that does not decode is rejected with its cause. -/
def Obligations.StepRunsTheDecodedCommand : Prop :=
  ∀ (s : State) (w : Word) (rest : List Input), s.pending = .issued (.submit w) :: rest →
    (∀ i, decode w = .command i → step s = exec i { s with pending := rest }) ∧
    (∀ c, decode w = .rejected c → step s = .next (State.reject c { s with pending := rest }))

/-- R214 with the codes of R211: every way a command is rejected writes `ERR` and `ECAUSE` and nothing else. -/
def Obligations.RejectionWritesOnlyErrorAndCause : Prop :=
  ∀ s : State,
    (∀ (w : Word) (rest : List Input), s.pending = .issued (.submit w) :: rest →
      (decode w = .rejected .illegalOpcode →
        step s = .next { s with pending := rest, err := true, ecause := 0x01 }) ∧
      (decode w = .rejected .reservedBits →
        step s = .next { s with pending := rest, err := true, ecause := 0x02 })) ∧
    exec (.loadtbl 0) s = .next { s with err := true, ecause := 0x03 } ∧
    (∀ (n : Byte) (i : Nat), i + 1 < n.toNat → s.recordThreshold (i + 1) < s.recordThreshold i →
      exec (.loadtbl n) s = .next { s with err := true, ecause := 0x04 }) ∧
    (s.tvalid = false → exec .col s = .next { s with err := true, ecause := 0x05 })

/-- R42 with the STATUS bits of R36: the value the register read port returns for every register number. -/
def Obligations.ReadPortMap : Prop :=
  ∀ (s : State) (r : Byte), let v := s.readReg r
    (r = 0x00 → v = s.acc) ∧
    (r = 0x01 → v.getLsbD 0 = s.c ∧ v.getLsbD 1 = s.tvalid ∧ v.getLsbD 2 = s.err ∧
      ∀ j, 3 ≤ j → v.getLsbD j = false) ∧
    (r = 0x02 → v.toNat = s.ecause.toNat) ∧ (r = 0x03 → v = s.bias) ∧ (r = 0x04 → v = s.thresh) ∧
    (r = 0x05 → v = s.subtr) ∧ (r = 0x06 → v.toNat = s.scale.toNat) ∧ (r = 0x07 → v = s.period) ∧
    (r = 0x08 → v = s.linf) ∧ (r = 0x09 → v.toNat = s.rowidx.toNat) ∧
    (r = 0x0A → v.toNat = s.colidx.toNat) ∧ (r = 0x0B → v.toNat = s.brkt.toNat) ∧
    (r = 0x0C → v = s.tbase) ∧ (r = 0x0D → v.toNat = s.tlen.toNat) ∧
    (0x0E ≤ r.toNat → v = 0x0000)

/-- R43, R226: a READ gives the register's value back and changes nothing of the block. Where the value goes, the host's list
`answers`, is the model's own (log 5). -/
def Obligations.ReadAnswersAndChangesNothing : Prop :=
  ∀ (s : State) (r : Byte) (rest : List Input), s.pending = .issued (.read r) :: rest →
    step s = .next { s with pending := rest, answers := s.answers ++ [s.readReg r] }

/-- R62, R66: a TWRITE sets one byte, leaves every other byte and register, and clears `TVALID` exactly when the byte is one
of the table's. -/
def Obligations.TableWriteChangesOneByte : Prop :=
  ∀ (s : State) (a : Half) (v : Byte) (rest : List Input), s.pending = .issued (.twrite a v) :: rest →
    ∃ t, step s = .next t ∧
      t = { s with pending := rest, tmem := t.tmem, tvalid := t.tvalid } ∧
      t.memRead1 a.toNat = v ∧
      (∀ b : Half, b ≠ a → t.memRead1 b.toNat = s.memRead1 b.toNat) ∧
      (t.tvalid = true ↔ s.tvalid = true ∧
        ¬∃ i k, i < s.tlen.toNat ∧ k ≤ 3 ∧ a.toNat = (s.tbase.toNat + 4 * i + k) % 65536)

/-- R66 as an interval: the bytes that invalidate are the `4 * TLEN` bytes from `TBASE` on, round the top of memory. -/
def Obligations.TableBytesAreOneWrappedInterval : Prop :=
  ∀ (s : State) (a : Half), s.inTable a = true ↔ (a - s.tbase).toNat < 4 * s.tlen.toNat

/-- R240, R241: RESET sets every register and keeps the table memory; COL is then rejected until a table is validated. -/
def Obligations.ResetSetsRegistersKeepsTable : Prop :=
  ∀ (s : State) (rest : List Input), s.pending = .issued .reset :: rest →
    ∃ t, step s = .next t ∧
      (t.acc = 0x0000 ∧ t.c = false ∧ t.bias = 0x225D ∧ t.thresh = 0x09C0 ∧ t.subtr = 0x001E ∧
        t.scale = 0xB2 ∧ t.period = 0x0000 ∧ t.linf = 0x0000 ∧ t.rowidx = 0x00 ∧ t.colidx = 0x00 ∧
        t.brkt = 0x00 ∧ t.tbase = 0x0000 ∧ t.tlen = 0x00 ∧ t.tvalid = false ∧ t.err = false ∧
        t.ecause = 0x00) ∧
      (∀ a : Nat, t.memRead1 a = s.memRead1 a) ∧
      exec .col t = .next { t with err := true, ecause := 0x05 }

/-- The model's choice (logs 3, 4, 5): RESET keeps the block's parameter, what is still pending, and the answers given. -/
def Obligations.ResetKeepsPortAndParameter : Prop :=
  ∀ (s : State) (rest : List Input), s.pending = .issued .reset :: rest →
    ∃ t, step s = .next t ∧ t.pending = rest ∧ t.answers = s.answers ∧ t.colBit7Delta = s.colBit7Delta

/-- R45: the launch state's registers. -/
def Obligations.LaunchStateIsTheResetState : Prop :=
  let t := core.reset
  t.acc = 0x0000 ∧ t.c = false ∧ t.bias = 0x225D ∧ t.thresh = 0x09C0 ∧ t.subtr = 0x001E ∧
    t.scale = 0xB2 ∧ t.period = 0x0000 ∧ t.linf = 0x0000 ∧ t.rowidx = 0x00 ∧ t.colidx = 0x00 ∧
    t.brkt = 0x00 ∧ t.tbase = 0x0000 ∧ t.tlen = 0x00 ∧ t.tvalid = false ∧ t.err = false ∧ t.ecause = 0x00

/-- R228: between actions the block holds its state. -/
def Obligations.IdleBlockHoldsItsState : Prop := ∀ s : State, s.pending = [] → step s = .next s

/-- R226, R210, U4: the block performs every action; a step stops exactly on an action issued too early (log 6). -/
def Obligations.OnlyAnEarlyActionStops : Prop :=
  ∀ s : State,
    ((∃ t, step s = .next t) ↔ ¬∃ a rest, s.pending = .early a :: rest) ∧
    ((∃ a rest, s.pending = .early a :: rest) → step s = .fault .issuedEarly)

/-- R229, R72: a run has no hang. With the contract of the port kept, as many steps as there are pending actions are exactly
those actions performed in order, each whole, and leave the port empty. -/
def Obligations.EveryPendingActionIsPerformed : Prop :=
  ∀ s : State, s.HandshakeKept →
    ∃ as t, s.pending = as.map Input.issued ∧ core.run as.length s = .next t ∧
      performAll as { s with pending := [] } = .next t ∧ t.pending = []

/-! Invariant. -/

/-- The invariant holds after reset. -/
def Obligations.InvariantAfterReset : Prop := State.Inv core.reset

/-- Every step keeps the invariant: canonical memory, a valid table is non-empty and sorted, `ROWIDX` clipped, `ECAUSE` legal,
`ERR` set with a cause, `BRKT` an upper nibble that `COLIDX` contains. -/
def Obligations.InvariantKeptByEveryStep : Prop :=
  ∀ s t : State, s.Inv → step s = .next t → t.Inv

/-! ALU commands (spec/40_alu.md). -/

/-- R100: NOP changes nothing; the all-zero word is NOP. -/
def Obligations.NopChangesNothing : Prop :=
  CodedNone 0x00 .nop ∧ decode 0x00000000 = .command .nop ∧ ∀ s : State, exec .nop s = .next s

/-- R101, R102, R103: the word and byte loads of the accumulator. -/
def Obligations.AccumulatorLoads : Prop :=
  CodedImm16 0x10 .ldacc ∧ CodedImm8 0x11 .ldh ∧ CodedImm8 0x12 .ldl ∧
  ∀ s : State,
    (∀ v : Half, ∃ t, exec (.ldacc v) s = .next t ∧ t = { s with acc := t.acc } ∧ t.acc = v) ∧
    (∀ v : Byte, ∃ t, exec (.ldh v) s = .next t ∧ t = { s with acc := t.acc } ∧
      t.acc.toNat = 256 * v.toNat + s.acc.toNat % 256) ∧
    (∀ v : Byte, ∃ t, exec (.ldl v) s = .next t ∧ t = { s with acc := t.acc } ∧
      t.acc.toNat = 256 * (s.acc.toNat / 256) + v.toNat)

/-- R104, R112: the sum with its carry is exact; nothing else changes and the old carry is not read. -/
def Obligations.Add16IsExactWithCarry : Prop :=
  CodedImm16 0x13 .add16 ∧
  ∀ (s : State) (v : Half), ∃ t, exec (.add16 v) s = .next t ∧ t = { s with acc := t.acc, c := t.c } ∧
    t.acc.toNat = (s.acc.toNat + v.toNat) % 65536 ∧
    (t.c = true ↔ s.acc.toNat + v.toNat > 65535) ∧
    t.acc.toNat + 65536 * t.c.toNat = s.acc.toNat + v.toNat ∧
    ∀ b, exec (.add16 v) { s with c := b } = .next t

/-- R105, R112: the difference, with the carry set on no borrow; nothing else changes and the old carry is not read. -/
def Obligations.Sub16CarriesOnNoBorrow : Prop :=
  CodedImm16 0x14 .sub16 ∧
  ∀ (s : State) (v : Half), ∃ t, exec (.sub16 v) s = .next t ∧ t = { s with acc := t.acc, c := t.c } ∧
    ((t.acc.toNat : Int) = ((s.acc.toNat : Int) - v.toNat) % 65536) ∧
    (t.c = true ↔ s.acc.toNat ≥ v.toNat) ∧
    (t.c = true → (t.acc.toNat : Int) = (s.acc.toNat : Int) - v.toNat) ∧
    (t.c = false → (t.acc.toNat : Int) = (s.acc.toNat : Int) - v.toNat + 65536) ∧
    ∀ b, exec (.sub16 v) { s with c := b } = .next t

/-- R106: ADDW wraps as ADD16 does and leaves the carry. -/
def Obligations.AddwWrapsAndKeepsCarry : Prop :=
  CodedImm16 0x15 .addw ∧
  ∀ (s : State) (v : Half), ∃ t u, exec (.addw v) s = .next t ∧ exec (.add16 v) s = .next u ∧
    t = { s with acc := t.acc } ∧ t.acc.toNat = (s.acc.toNat + v.toNat) % 65536 ∧ t.acc = u.acc

/-- R107, R113: the product of the two halves is exact, at most 0xFE01, and its high byte at most 0xFE. -/
def Obligations.Mul8IsExact : Prop :=
  CodedNone 0x16 .mul8 ∧
  ∀ s : State, ∃ t, exec .mul8 s = .next t ∧ t = { s with acc := t.acc } ∧
    t.acc.toNat = s.acc.toNat / 256 * (s.acc.toNat % 256) ∧ t.acc.toNat ≤ 0xFE01 ∧ t.acc.toNat / 256 ≤ 0xFE

/-- R108, R109, R110: the three shifts, bit by bit; the carry does not take the dropped bit. -/
def Obligations.ShiftsMoveBits : Prop :=
  CodedNone 0x17 .shl1 ∧ CodedNone 0x18 .shr1 ∧ CodedNone 0x19 .shr4 ∧
  ∀ s : State,
    (∃ t, exec .shl1 s = .next t ∧ t = { s with acc := t.acc } ∧ t.acc.toNat = 2 * s.acc.toNat % 65536 ∧
      t.acc.getLsbD 0 = false ∧ ∀ j, 1 ≤ j → j ≤ 15 → t.acc.getLsbD j = s.acc.getLsbD (j - 1)) ∧
    (∃ t, exec .shr1 s = .next t ∧ t = { s with acc := t.acc } ∧ t.acc.toNat = s.acc.toNat / 2 ∧
      t.acc.getLsbD 15 = false ∧ ∀ j, j ≤ 14 → t.acc.getLsbD j = s.acc.getLsbD (j + 1)) ∧
    (∃ t, exec .shr4 s = .next t ∧ t = { s with acc := t.acc } ∧ t.acc.toNat = s.acc.toNat / 16 ∧
      (∀ j, 12 ≤ j → t.acc.getLsbD j = false) ∧ ∀ j, j ≤ 11 → t.acc.getLsbD j = s.acc.getLsbD (j + 4))

/-! Configuration commands (spec/41_config.md). -/

/-- R130 to R135: each register-load command writes its one register. -/
def Obligations.RegisterLoadsWriteOneRegister : Prop :=
  CodedImm16 0x20 .setbias ∧ CodedImm16 0x21 .setthr ∧ CodedImm16 0x22 .setsub ∧ CodedImm8 0x23 .setscl ∧
  CodedImm16 0x24 .setper ∧ CodedImm16 0x25 .setlinf ∧
  ∀ (s : State) (v : Half) (b : Byte),
    exec (.setbias v) s = .next { s with bias := v } ∧ exec (.setthr v) s = .next { s with thresh := v } ∧
    exec (.setsub v) s = .next { s with subtr := v } ∧ exec (.setscl b) s = .next { s with scale := b } ∧
    exec (.setper v) s = .next { s with period := v } ∧ exec (.setlinf v) s = .next { s with linf := v }

/-- R136: SETTBASE places the table and invalidates it, even at the same base; `TLEN` stays. -/
def Obligations.SettbaseInvalidatesTheTable : Prop :=
  CodedImm16 0x26 .settbase ∧
  ∀ (s : State) (v : Half), exec (.settbase v) s = .next { s with tbase := v, tvalid := false }

/-- R140 to R144: LOADTBL accepts exactly the non-empty tables whose thresholds never decrease, and what it then writes; a
rejected one leaves the earlier table in force. -/
def Obligations.LoadtblValidatesTheThresholds : Prop :=
  CodedImm8 0x27 .loadtbl ∧
  ∀ (s : State) (n : Byte),
    (n = 0 → exec (.loadtbl n) s = .next { s with err := true, ecause := 0x03 }) ∧
    (n ≠ 0 → (∃ i, i + 1 < n.toNat ∧ s.recordThreshold i > s.recordThreshold (i + 1)) →
      exec (.loadtbl n) s = .next { s with err := true, ecause := 0x04 }) ∧
    (n ≠ 0 → (∀ i, i + 1 < n.toNat → s.recordThreshold i ≤ s.recordThreshold (i + 1)) →
      exec (.loadtbl n) s = .next { s with tlen := n, tvalid := true })

/-- R150: CLRERR clears the error report and nothing else. -/
def Obligations.ClrerrClearsTheReport : Prop :=
  CodedNone 0x28 .clrerr ∧
  ∀ s : State, exec .clrerr s = .next { s with err := false, ecause := 0x00 }

/-- R246, R199: a sorted table placed by SETTBASE and then loaded by LOADTBL is scanned by COL, which adds no rejection;
with the two in the other order COL is rejected with NO_TABLE. -/
def Obligations.TableMustBeLoadedAfterItIsPlaced : Prop :=
  ∀ (s : State) (base : Half) (n : Byte), n ≠ 0 →
    (∀ i, i + 1 < n.toNat →
      State.recordThreshold { s with tbase := base } i ≤ State.recordThreshold { s with tbase := base } (i + 1)) →
    (∃ t, execAll [.settbase base, .loadtbl n, .col] s = .next t ∧ t.tvalid = true ∧ t.tlen = n ∧
      t.tbase = base ∧ t.err = s.err ∧ t.ecause = s.ecause) ∧
    (∃ t, execAll [.loadtbl n, .settbase base, .col] s = .next t ∧ t.tvalid = false ∧
      t.err = true ∧ t.ecause = 0x05 ∧ t.colidx = s.colidx ∧ t.brkt = s.brkt)

/-! The linearizer (spec/42_linearizer.md). -/

/-- R160 to R163, R165 to R167: LIN's result by exact arithmetic, and that it writes `LINF` only. -/
def Obligations.LinComputesTwoSquarings : Prop :=
  CodedImm16 0x30 .lin ∧
  ∀ (s : State) (x : Half), ∃ t, exec (.lin x) s = .next t ∧ t = { s with linf := t.linf } ∧
    t.linf.toNat = linResult s.bias.toNat s.thresh.toNat x.toNat

/-- R163, R164: LIN's square is the high half of the exact 32-bit square, and so is the square from three 8×8 products, carries kept. -/
def Obligations.SquareFromThreeByteProducts : Prop :=
  ∀ x : Half,
    let h := high8 x
    let l := low8 x
    (linSquare x).toNat = x.toNat * x.toNat / 65536 ∧
    (linSquare x).toNat =
      (mul8x8 h h).toNat + (((mul8x8 h l).toNat <<< 9) + (mul8x8 l l).toNat) >>> 16

/-- R168: LIN is total and `LINF` after it is never 0xFFFF. -/
def Obligations.LinIsTotalAndBelowFFFF : Prop :=
  ∀ (s : State) (x : Half), ∃ t, exec (.lin x) s = .next t ∧ t.linf.toNat ≤ 0xFFFE

/-- R161: bits 15:13 of the sensor sum are lost, so they never matter. -/
def Obligations.LinIgnoresTheTopThreeBits : Prop :=
  ∀ (s : State) (x y : Half), x.toNat % 0x2000 = y.toNat % 0x2000 → exec (.lin x) s = exec (.lin y) s

/-- R170: under the reset calibration a sensor sum of 0 gives 0, its first square 0x049C not being above half the threshold,
and the smallest sensor sum with a nonzero result is 60. -/
def Obligations.LinFirstNonzeroAtSixty : Prop :=
  linSquare 0x225D = 0x049C ∧ ¬(0x049C > 0x09C0 / 2) ∧
  ∀ s : State, s.bias = 0x225D → s.thresh = 0x09C0 →
    (∀ x : Half, x.toNat < 60 → ∃ t, exec (.lin x) s = .next t ∧ t.linf = 0x0000) ∧
    ∃ t, exec (.lin 60) s = .next t ∧ t.linf = 0x0001

/-- R171: under the reset calibration LIN is non-decreasing over [0, 1023], and not beyond: `LIN #0x1FFF` gives 0. -/
def Obligations.LinIsMonotoneOverSensorRange : Prop :=
  ∀ s : State, s.bias = 0x225D → s.thresh = 0x09C0 →
    (∀ x y : Half, x.toNat ≤ y.toNat → y.toNat ≤ 1023 →
      ∃ t u, exec (.lin x) s = .next t ∧ exec (.lin y) s = .next u ∧ t.linf.toNat ≤ u.linf.toNat) ∧
    ∃ t, exec (.lin 0x1FFF) s = .next t ∧ t.linf = 0x0000

/-! The index engines (spec/43_index.md). -/

/-- R180 to R186: ROW's result by exact arithmetic, its range, and that it writes `ROWIDX` only. -/
def Obligations.RowComputesTheClippedIndex : Prop :=
  CodedNone 0x31 .row ∧
  ∀ s : State, ∃ t, exec .row s = .next t ∧ t = { s with rowidx := t.rowidx } ∧
    t.rowidx.toNat = rowResult (s.period.toNat * s.linf.toNat / 65536) s.subtr.toNat s.scale.toNat ∧
    t.rowidx.toNat ≤ 0x70

/-- The row engine agrees with the ALU commands that compute the same steps (spec/95 program P3), on each of its three
exits: SUB16's borrow is the exit with 0, a nonzero high byte after SHR1 is the saturation, and otherwise MUL8's high byte,
clipped, is the index. -/
def Obligations.RowAgreesWithItsAluProgram : Prop :=
  ∀ (s : State) (p : Half), p.toNat = s.period.toNat * s.linf.toNat / 65536 →
    ∃ t u v r, execAll [.ldacc p, .sub16 s.subtr] s = .next t ∧ exec .shr1 t = .next u ∧
      execAll [.ldh s.scale, .mul8] u = .next v ∧ exec .row s = .next r ∧
      (t.c = false → r.rowidx = 0x00) ∧
      (t.c = true → u.acc.toNat / 256 ≠ 0 → r.rowidx = 0x70) ∧
      (t.c = true → u.acc.toNat / 256 = 0 → r.rowidx.toNat = min (v.acc.toNat / 256) 0x70)

/-- R190, R193 to R199: without a validated table COL is rejected with NO_TABLE and writes neither result; with one, its results at the record where the scan ends, for both values of `COL_BIT7_DELTA`, the sentinel
when no threshold is at or above the period, and that it writes `COLIDX` and `BRKT` only. The premise that a valid table has
a record is part of the invariant (InvariantKeptByEveryStep). -/
def Obligations.ColWeighsTheBracketRecord : Prop :=
  CodedNone 0x32 .col ∧
  (∀ s : State, s.tvalid = false → exec .col s = .next { s with err := true, ecause := 0x05 }) ∧
  ∀ s : State, s.tvalid = true → 1 ≤ s.tlen.toNat →
    ∃ t, exec .col s = .next t ∧ t = { s with colidx := t.colidx, brkt := t.brkt } ∧
      (∀ i, s.EndsAt i →
        let up := 16 * ((s.tlen.toNat - 1 - i) % 16)
        let delta := deltaResult s.colBit7Delta (s.recordByte i 2) (s.recordThreshold i - s.period.toNat)
        t.brkt.toNat = up ∧ t.colidx.toNat = up ||| (delta * s.recordByte i 3 / 256)) ∧
      ((∀ i, i < s.tlen.toNat → s.recordThreshold i < s.period.toNat) → t.colidx = 0x00 ∧ t.brkt = 0x00)

/-- R191: over a valid table COL's scan stops at the bracket containing the period, the one record with every threshold before it
below the period and its own and every later one at or above it; the countdown and the remainder are that record's. The scan
finds nothing exactly when every threshold is below the period. `BRKT` after COL is that record's nibble. -/
def Obligations.ScanEndsAtTheContainingBracket : Prop :=
  ∀ s : State, s.Inv → s.tvalid = true →
    let found := s.colScan (s.tlen - 1).toNat 0
    let bracket := fun i : Nat => i < s.tlen.toNat ∧ ∀ j, j < s.tlen.toNat →
      (j < i → s.recordThreshold j < s.period.toNat) ∧ (i ≤ j → s.period.toNat ≤ s.recordThreshold j)
    (∀ i, (∃ stop, found = some stop ∧ stop.i = i) ↔ bracket i) ∧
    (∀ stop, found = some stop → stop.i + stop.cnt = s.tlen.toNat - 1 ∧
      stop.rem.toNat = s.recordThreshold stop.i - s.period.toNat) ∧
    (found = none ↔ ∀ j, j < s.tlen.toNat → s.recordThreshold j < s.period.toNat) ∧
    ∃ t, exec .col s = .next t ∧
      ∀ i, bracket i → t.brkt.toNat = 16 * ((s.tlen.toNat - 1 - i) % 16)

/-! Rules about the whole machine. -/

/-- R22: `ACC` is written only by the ALU commands (opcodes 0x10 to 0x19) and by reset, and the other commands do not read it. -/
def Obligations.AccUsedOnlyByAluAndReset : Prop :=
  (∀ s t : State, step s = .next t → t.acc ≠ s.acc →
    (∃ rest, s.pending = .issued .reset :: rest) ∨
    ∃ w rest i, s.pending = .issued (.submit w) :: rest ∧ decode w = .command i ∧
      0x10 ≤ i.opcode.toNat ∧ i.opcode.toNat ≤ 0x19) ∧
  ∀ (i : Instr) (s : State) (a : Half), ¬(0x10 ≤ i.opcode.toNat ∧ i.opcode.toNat ≤ 0x19) →
    ∃ t, exec i s = .next t ∧ t.acc = s.acc ∧ exec i { s with acc := a } = .next { t with acc := a }

/-- R25, R254: the carry keeps its value through every action but ADD16, SUB16 and reset. -/
def Obligations.CarryWrittenOnlyByAddSubAndReset : Prop :=
  ∀ s t : State, step s = .next t → t.c ≠ s.c →
    (∃ rest, s.pending = .issued .reset :: rest) ∨
    ∃ w rest v, s.pending = .issued (.submit w) :: rest ∧
      (decode w = .command (.add16 v) ∨ decode w = .command (.sub16 v))

/-- R146: `TVALID` becomes 1 only by a successful LOADTBL, and 0 only by SETTBASE, a host write into the table, and reset. -/
def Obligations.WhatChangesTableValidity : Prop :=
  ∀ s t : State, step s = .next t →
    (s.tvalid = false → t.tvalid = true →
      ∃ w rest n, s.pending = .issued (.submit w) :: rest ∧ decode w = .command (.loadtbl n) ∧ t.tlen = n ∧ n ≠ 0) ∧
    (s.tvalid = true → t.tvalid = false →
      (∃ w rest v, s.pending = .issued (.submit w) :: rest ∧ decode w = .command (.settbase v)) ∨
      (∃ a v rest i k, s.pending = .issued (.twrite a v) :: rest ∧ i < s.tlen.toNat ∧ k ≤ 3 ∧
        a.toNat = (s.tbase.toNat + 4 * i + k) % 65536) ∨
      ∃ rest, s.pending = .issued .reset :: rest)

/-- R217: `ERR` stays 1 through every action but CLRERR and reset, and a command after a rejection executes normally: whatever
`ERR` and `ECAUSE` hold, it has the same effect on everything else. -/
def Obligations.ErrorIsStickyAndHarmless : Prop :=
  (∀ s t : State, step s = .next t → s.err = true → t.err = false →
    (∃ rest, s.pending = .issued .reset :: rest) ∨
    ∃ w rest, s.pending = .issued (.submit w) :: rest ∧ decode w = .command .clrerr) ∧
  ∀ (i : Instr) (s : State) (e : Bool) (c : Byte), ∃ t u, exec i s = .next t ∧
    exec i { s with err := e, ecause := c } = .next u ∧ u = { t with err := u.err, ecause := u.ecause }

/-- R61: only a host TWRITE changes a byte of the table memory, and only the byte it names; no command does. Only LOADTBL and
COL read it; no READ shows it. -/
def Obligations.WhoReachesTableMemory : Prop :=
  (∀ (i : Instr) (s t : State), exec i s = .next t → ∀ a, t.memRead1 a = s.memRead1 a) ∧
  (∀ s t : State, step s = .next t → ∀ a : Half, t.memRead1 a.toNat ≠ s.memRead1 a.toNat →
    ∃ v rest, s.pending = .issued (.twrite a v) :: rest) ∧
  (∀ (i : Instr) (s : State) (m : Memory), i.opcode ≠ 0x27 → i.opcode ≠ 0x32 →
    ∃ t, exec i s = .next t ∧ exec i { s with tmem := m } = .next { t with tmem := m }) ∧
  ∀ (s : State) (m : Memory) (r : Byte), State.readReg { s with tmem := m } r = s.readReg r

/-- R34, R33: the result registers are written only by their engines (and `LINF` by SETLINF), and by reset. -/
def Obligations.ResultsWrittenOnlyByTheirCommands : Prop :=
  ∀ s t : State, step s = .next t → ¬(∃ rest, s.pending = .issued .reset :: rest) →
    (t.rowidx ≠ s.rowidx → t.rowidx.toNat ≤ 0x70 ∧
      ∃ w rest, s.pending = .issued (.submit w) :: rest ∧ decode w = .command .row) ∧
    (t.colidx ≠ s.colidx ∨ t.brkt ≠ s.brkt →
      ∃ w rest, s.pending = .issued (.submit w) :: rest ∧ decode w = .command .col) ∧
    (t.linf ≠ s.linf → ∃ w rest v, s.pending = .issued (.submit w) :: rest ∧
      (decode w = .command (.lin v) ∨ decode w = .command (.setlinf v)))

/-- R26: no command reads the carry. Two states that differ in `C` alone stay so, and after ADD16 or SUB16 are equal. -/
def Obligations.NoCommandReadsTheCarry : Prop :=
  ∀ (i : Instr) (s : State) (b : Bool),
    (i.opcode = 0x13 ∨ i.opcode = 0x14 → exec i { s with c := b } = exec i s) ∧
    (¬(i.opcode = 0x13 ∨ i.opcode = 0x14) →
      ∃ t, exec i s = .next t ∧ exec i { s with c := b } = .next { t with c := b })

/-- R145: LOADTBL depends on no byte of the table memory but offsets 0 and 1 of its records. -/
def Obligations.LoadtblReadsOnlyThresholds : Prop :=
  ∀ (s : State) (m : Memory) (n : Byte),
    (∀ i k, i < n.toNat → k ≤ 1 → State.recordByte { s with tmem := m } i k = s.recordByte i k) →
    ∃ t, exec (.loadtbl n) s = .next t ∧ exec (.loadtbl n) { s with tmem := m } = .next { t with tmem := m }

/-- R192: COL depends on no byte but the thresholds of the records it visits, and the control byte and multiplier of the
record where the scan ends; rejected, it depends on none. That a valid table has a record is part of the invariant. -/
def Obligations.ColReadsOnlyVisitedRecords : Prop :=
  ∀ (s : State) (m : Memory),
    (s.tvalid = true → 1 ≤ s.tlen.toNat ∧ ∀ i, i < s.tlen.toNat →
      (∀ j, j < i → s.recordThreshold j < s.period.toNat) →
      State.recordByte { s with tmem := m } i 0 = s.recordByte i 0 ∧
      State.recordByte { s with tmem := m } i 1 = s.recordByte i 1 ∧
      (s.period.toNat ≤ s.recordThreshold i →
        State.recordByte { s with tmem := m } i 2 = s.recordByte i 2 ∧
        State.recordByte { s with tmem := m } i 3 = s.recordByte i 3)) →
    ∃ t, exec .col s = .next t ∧ exec .col { s with tmem := m } = .next { t with tmem := m }

/-! The assembler's notation (R89, R90). -/

/-- R90: each pseudo-instruction's expansion, and the effect of running it. -/
def Obligations.PseudoInstructionsExpand : Prop :=
  ∀ s : State,
    (expand .clracc = [.ldacc 0x0000] ∧ execAll (expand .clracc) s = .next { s with acc := 0x0000 }) ∧
    (∀ k, 1 ≤ k → k ≤ 15 → expand (.shl k) = List.replicate k .shl1 ∧
      ∃ t, execAll (expand (.shl k)) s = .next t ∧ t = { s with acc := t.acc } ∧
        t.acc.toNat = s.acc.toNat * 2 ^ k % 65536) ∧
    (∀ k, 1 ≤ k → k ≤ 15 →
      expand (.shr k) = List.replicate (k / 4) .shr4 ++ List.replicate (k % 4) .shr1 ∧
      ∃ t, execAll (expand (.shr k)) s = .next t ∧ t = { s with acc := t.acc } ∧
        t.acc.toNat = s.acc.toNat / 2 ^ k) ∧
    (∀ a b : Byte, expand (.ld8x8 a b) = [.ldh a, .ldl b] ∧
      ∃ t, execAll (expand (.ld8x8 a b)) s = .next t ∧ t = { s with acc := t.acc } ∧
        t.acc.toNat = 256 * a.toNat + b.toNat) ∧
    (∀ (b t u : Half) (c : Byte), expand (.setcal b t u c) = [.setbias b, .setthr t, .setsub u, .setscl c] ∧
      execAll (expand (.setcal b t u c)) s = .next { s with bias := b, thresh := t, subtr := u, scale := c }) ∧
    (∀ (b : Half) (n : Byte), expand (.table b n) = [.settbase b, .loadtbl n] ∧
      execAll (expand (.table b n)) s = exec (.loadtbl n) { s with tbase := b, tvalid := false })

/-- R89: a written command assembles exactly when it has the one operand its form asks for, in range, and the word is
`opc << 24 | v`. -/
def Obligations.AssemblerChecksOperands : Prop :=
  ∀ (opc : Byte) (e : Entry), opcodeEntry opc = some e →
    (e.form = .none →
      (∃ i, assembleCommand e [] = some i ∧ (encode i).toNat = opc.toNat * 0x1000000) ∧
      ∀ v vs, assembleCommand e (v :: vs) = none) ∧
    (e.form = .imm8 ∨ e.form = .imm16 →
      assembleCommand e [] = none ∧ (∀ v u vs, assembleCommand e (v :: u :: vs) = none) ∧
      ∀ v, (v ≤ (if e.form = .imm8 then 0xFF else 0xFFFF) →
          ∃ i, assembleCommand e [v] = some i ∧ (encode i).toNat = opc.toNat * 0x1000000 + v) ∧
        (¬v ≤ (if e.form = .imm8 then 0xFF else 0xFFFF) → assembleCommand e [v] = none))
end

