-- ==== Sys2Proof/Laws/PerInstr.lean ====
section
/-! SUPPORT. Per command: its row of the opcode map is found under its opcode, has its form, and builds it from its operand
(spec/30_encoding.md R85). -/

namespace Sys2Proof.Laws

/-- The command a row builds from an `IMM` field (R82, R85). -/
def rowBuilds : Entry → Half → Instr
  | .none i, _ => i
  | .imm8 mk, v => mk (v.extractLsb' 0 8)
  | .imm16 mk, v => mk v

/-- The row under the command's opcode has the command's form and builds the command. -/
def TableRow.Statement (i : Instr) : Prop :=
  ∃ e, opcodeEntry i.opcode = some e ∧ e.form = i.form ∧ rowBuilds e i.imm = i

/-- An `imm8` is read back from the field that widens it (R82). -/
theorem lowByte_of_widened (v : Byte) : (v.setWidth 16).extractLsb' 0 8 = v := by
  have h := v.isLt
  apply BitVec.eq_of_toNat_eq
  simp only [BitVec.extractLsb'_toNat, BitVec.toNat_setWidth, Nat.shiftRight_zero]
  omega

theorem TableRow.nop : TableRow.Statement .nop := ⟨_, rfl, rfl, rfl⟩
theorem TableRow.ldacc (imm : Half) : TableRow.Statement (.ldacc imm) := ⟨_, rfl, rfl, rfl⟩
theorem TableRow.ldh (imm : Byte) : TableRow.Statement (.ldh imm) :=
  ⟨_, rfl, rfl, congrArg Instr.ldh (lowByte_of_widened imm)⟩
theorem TableRow.ldl (imm : Byte) : TableRow.Statement (.ldl imm) :=
  ⟨_, rfl, rfl, congrArg Instr.ldl (lowByte_of_widened imm)⟩
theorem TableRow.add16 (imm : Half) : TableRow.Statement (.add16 imm) := ⟨_, rfl, rfl, rfl⟩
theorem TableRow.sub16 (imm : Half) : TableRow.Statement (.sub16 imm) := ⟨_, rfl, rfl, rfl⟩
theorem TableRow.addw (imm : Half) : TableRow.Statement (.addw imm) := ⟨_, rfl, rfl, rfl⟩
theorem TableRow.mul8 : TableRow.Statement .mul8 := ⟨_, rfl, rfl, rfl⟩
theorem TableRow.shl1 : TableRow.Statement .shl1 := ⟨_, rfl, rfl, rfl⟩
theorem TableRow.shr1 : TableRow.Statement .shr1 := ⟨_, rfl, rfl, rfl⟩
theorem TableRow.shr4 : TableRow.Statement .shr4 := ⟨_, rfl, rfl, rfl⟩
theorem TableRow.setbias (imm : Half) : TableRow.Statement (.setbias imm) := ⟨_, rfl, rfl, rfl⟩
theorem TableRow.setthr (imm : Half) : TableRow.Statement (.setthr imm) := ⟨_, rfl, rfl, rfl⟩
theorem TableRow.setsub (imm : Half) : TableRow.Statement (.setsub imm) := ⟨_, rfl, rfl, rfl⟩
theorem TableRow.setscl (imm : Byte) : TableRow.Statement (.setscl imm) :=
  ⟨_, rfl, rfl, congrArg Instr.setscl (lowByte_of_widened imm)⟩
theorem TableRow.setper (imm : Half) : TableRow.Statement (.setper imm) := ⟨_, rfl, rfl, rfl⟩
theorem TableRow.setlinf (imm : Half) : TableRow.Statement (.setlinf imm) := ⟨_, rfl, rfl, rfl⟩
theorem TableRow.settbase (imm : Half) : TableRow.Statement (.settbase imm) := ⟨_, rfl, rfl, rfl⟩
theorem TableRow.loadtbl (imm : Byte) : TableRow.Statement (.loadtbl imm) :=
  ⟨_, rfl, rfl, congrArg Instr.loadtbl (lowByte_of_widened imm)⟩
theorem TableRow.clrerr : TableRow.Statement .clrerr := ⟨_, rfl, rfl, rfl⟩
theorem TableRow.lin (imm : Half) : TableRow.Statement (.lin imm) := ⟨_, rfl, rfl, rfl⟩
theorem TableRow.row : TableRow.Statement .row := ⟨_, rfl, rfl, rfl⟩
theorem TableRow.col : TableRow.Statement .col := ⟨_, rfl, rfl, rfl⟩

end Sys2Proof.Laws
end

