-- ==== Sys2Proof/Laws/Decode.lean ====
section
/-! SUPPORT. The fields of a word as plain numbers, and everything the decoder can do with a word. -/

namespace Sys2Proof

theorem opcField_toNat (w : Word) : (opcField w).toNat = w.toNat / 0x1000000 := by
  have := w.isLt
  simp only [opcField, BitVec.extractLsb'_toNat, Nat.shiftRight_eq_div_pow]
  omega

theorem rsvField_toNat (w : Word) : (rsvField w).toNat = w.toNat / 0x10000 % 0x100 := by
  simp only [rsvField, BitVec.extractLsb'_toNat, Nat.shiftRight_eq_div_pow]

theorem immField_toNat (w : Word) : (immField w).toNat = w.toNat % 0x10000 := by
  simp only [immField, BitVec.extractLsb'_toNat, Nat.shiftRight_zero]

theorem immHigh_toNat (w : Word) : (immHigh w).toNat = w.toNat / 0x100 % 0x100 := by
  simp only [immHigh, BitVec.extractLsb'_toNat, Nat.shiftRight_eq_div_pow]

theorem immLow_toNat (w : Word) : (immLow w).toNat = w.toNat % 0x100 := by
  simp only [immLow, BitVec.extractLsb'_toNat, Nat.shiftRight_zero]

/-- `imm8` is the low byte of the `IMM` field (R82). -/
theorem immLow_eq (w : Word) : immLow w = (immField w).extractLsb' 0 8 := by
  apply BitVec.eq_of_toNat_eq
  rw [immLow_toNat, BitVec.extractLsb'_toNat, immField_toNat, Nat.shiftRight_zero]
  omega

/-- A command's word is `opc << 24 | v` (R89). -/
theorem encode_toNat (i : Instr) : (encode i).toNat = i.opcode.toNat * 0x1000000 + i.imm.toNat := by
  rw [encode, BitVec.toNat_append, BitVec.toNat_append, ← Nat.shiftLeft_add_eq_or_of_lt i.imm.isLt,
    ← Nat.shiftLeft_add_eq_or_of_lt (BitVec.isLt (0 : Byte)), Nat.shiftLeft_eq, Nat.shiftLeft_eq]
  have h0 : BitVec.toNat (0 : Byte) = 0 := rfl
  omega

/-- Everything the decoder can answer: no row; a row with a reserved bit set; or a row's command (R83). -/
theorem decode_cases (w : Word) :
    (opcodeEntry (opcField w) = none ∧ decode w = .rejected .illegalOpcode) ∨
    ∃ e, opcodeEntry (opcField w) = some e ∧
      ((decode w = .rejected .reservedBits ∧
          (rsvField w ≠ 0 ∨ (e.form = .none ∧ immField w ≠ 0) ∨ (e.form = .imm8 ∧ immHigh w ≠ 0))) ∨
        (decode w = .command (Laws.rowBuilds e (immField w)) ∧ rsvField w = 0 ∧
          (e.form = .none → immField w = 0) ∧ (e.form = .imm8 → immHigh w = 0))) := by
  unfold decode
  cases h : opcodeEntry (opcField w) with
  | none => exact .inl ⟨rfl, rfl⟩
  | some e =>
    refine .inr ⟨e, rfl, ?_⟩
    by_cases hr : rsvField w = 0
    · cases e with
      | none i =>
        by_cases hi : immField w = 0
        · exact .inr ⟨by simp [hr, hi, Laws.rowBuilds], hr, fun _ => hi, nofun⟩
        · exact .inl ⟨by simp only [hr, hi, ne_eq, not_true, not_false_eq_true, if_false, if_true], .inr (.inl ⟨rfl, hi⟩)⟩
      | imm8 mk =>
        by_cases hi : immHigh w = 0
        · exact .inr ⟨by simp [hr, hi, Laws.rowBuilds, immLow_eq], hr, nofun, fun _ => hi⟩
        · exact .inl ⟨by simp only [hr, hi, ne_eq, not_true, not_false_eq_true, if_false, if_true], .inr (.inr ⟨rfl, hi⟩)⟩
      | imm16 mk => exact .inr ⟨by simp [hr, Laws.rowBuilds], hr, nofun, nofun⟩
    · exact .inl ⟨by simp only [ne_eq, hr, not_false_eq_true, if_true], .inl hr⟩

end Sys2Proof
end

