-- ==== Sys2Proof/Laws/Operands.lean ====
section
/-! SUPPORT. The notation and the primitives as plain numbers: one lemma per function. -/

namespace Sys2Proof.Machine

@[simp] theorem mod16_toNat (v : Nat) : (mod16 v).toNat = v % 65536 := rfl

@[simp] theorem mod8_toNat (v : Nat) : (mod8 v).toNat = v % 256 := rfl

@[simp] theorem high16_toNat (v : Word) : (high16 v).toNat = v.toNat / 65536 := by
  have h := v.isLt
  simp only [high16, BitVec.extractLsb'_toNat, Nat.shiftRight_eq_div_pow]
  omega

@[simp] theorem high8_toNat (v : Half) : (high8 v).toNat = v.toNat / 256 := by
  have h := v.isLt
  simp only [high8, BitVec.extractLsb'_toNat, Nat.shiftRight_eq_div_pow]
  omega

@[simp] theorem low8_toNat (v : Half) : (low8 v).toNat = v.toNat % 256 := by
  simp [low8, BitVec.extractLsb'_toNat]

@[simp] theorem pair_toNat (h l : Byte) : (pair h l).toNat = 256 * h.toNat + l.toNat := by
  have hl := l.isLt
  rw [pair, BitVec.toNat_append, Nat.shiftLeft_eq, ← Nat.shiftLeft_eq, ← Nat.shiftLeft_add_eq_or_of_lt hl,
    Nat.shiftLeft_eq]
  omega

@[simp] theorem zext16_toNat (v : Byte) : (zext16 v).toNat = v.toNat := by
  have h := v.isLt
  simp only [zext16, BitVec.toNat_setWidth]
  omega

@[simp] theorem accH_toNat (s : State) : s.accH.toNat = s.acc.toNat / 256 := high8_toNat s.acc

@[simp] theorem accL_toNat (s : State) : s.accL.toNat = s.acc.toNat % 256 := low8_toNat s.acc

/-- `add16` says its sum and its carry (R104). -/
theorem add16_spec (a b : Half) :
    (add16 a b).1.toNat = (a.toNat + b.toNat) % 65536 ∧ ((add16 a b).2 = true ↔ a.toNat + b.toNat > 65535) :=
  ⟨rfl, by simp [add16, carryOfAdd]⟩

/-- `sub16` says its difference modulo 65536 and its carry on no borrow (R105). -/
theorem sub16_spec (a b : Half) :
    (sub16 a b).1.toNat = (65536 + a.toNat - b.toNat) % 65536 ∧ ((sub16 a b).2 = true ↔ a.toNat ≥ b.toNat) :=
  ⟨rfl, by simp [sub16, carryOfSub]⟩

/-- Without a borrow `sub16` is the exact difference (R105, R183, R193). -/
theorem sub16_exact {a b : Half} (h : b.toNat ≤ a.toNat) : (sub16 a b).1.toNat = a.toNat - b.toNat := by
  have ha := a.isLt
  rw [(sub16_spec a b).1]
  omega

@[simp] theorem addWrap_toNat (a b : Half) : (addWrap a b).toNat = (a.toNat + b.toNat) % 65536 := rfl

theorem mul_lt_of_bytes (a b : Byte) : a.toNat * b.toNat ≤ 0xFE01 :=
  Nat.mul_le_mul (Nat.le_of_lt_succ a.isLt) (Nat.le_of_lt_succ b.isLt)

@[simp] theorem mul8x8_toNat (a b : Byte) : (mul8x8 a b).toNat = a.toNat * b.toNat := by
  have h := mul_lt_of_bytes a b
  simp only [mul8x8, BitVec.toNat_ofNat]
  omega

theorem mul_lt_of_halves (a b : Half) : a.toNat * b.toNat ≤ 0xFFFE0001 :=
  Nat.mul_le_mul (Nat.le_of_lt_succ a.isLt) (Nat.le_of_lt_succ b.isLt)

@[simp] theorem mul16x16_toNat (a b : Half) : (mul16x16 a b).toNat = a.toNat * b.toNat := by
  have h := mul_lt_of_halves a b
  simp only [mul16x16, BitVec.toNat_ofNat]
  omega

@[simp] theorem shiftLeft1_toNat (x : Half) : (shiftLeft1 x).toNat = 2 * x.toNat % 65536 := by
  rw [shiftLeft1, mod16_toNat, Nat.shiftLeft_eq, Nat.mul_comm]

@[simp] theorem shiftRight1_toNat (x : Half) : (shiftRight1 x).toNat = x.toNat / 2 := by
  simp [shiftRight1, BitVec.toNat_ushiftRight, Nat.shiftRight_eq_div_pow]

@[simp] theorem shiftRight4_toNat (x : Half) : (shiftRight4 x).toNat = x.toNat / 16 := by
  simp [shiftRight4, BitVec.toNat_ushiftRight, Nat.shiftRight_eq_div_pow]

/-- The bits of `STATUS` as the read port returns them (R36, R42). -/
theorem State.status_bits (s : State) :
    (zext16 s.status).getLsbD 0 = s.c ∧ (zext16 s.status).getLsbD 1 = s.tvalid ∧
      (zext16 s.status).getLsbD 2 = s.err ∧ s.status.toNat < 8 := by
  unfold State.status
  generalize s.c = c, s.tvalid = v, s.err = e
  revert c v e
  decide

end Sys2Proof.Machine
end

