-- ==== Sys2Proof/Laws/State.lean ====
section
/-! SUPPORT. One lemma per field per named update of the state: what it holds afterwards. -/

namespace Sys2Proof.Machine

/-! `State.setAcc` -/

@[simp] theorem State.setAcc_acc (v : Half) (s : State) : (s.setAcc v).acc = v := rfl
@[simp] theorem State.setAcc_c (v : Half) (s : State) : (s.setAcc v).c = s.c := rfl
@[simp] theorem State.setAcc_bias (v : Half) (s : State) : (s.setAcc v).bias = s.bias := rfl
@[simp] theorem State.setAcc_thresh (v : Half) (s : State) : (s.setAcc v).thresh = s.thresh := rfl
@[simp] theorem State.setAcc_subtr (v : Half) (s : State) : (s.setAcc v).subtr = s.subtr := rfl
@[simp] theorem State.setAcc_scale (v : Half) (s : State) : (s.setAcc v).scale = s.scale := rfl
@[simp] theorem State.setAcc_period (v : Half) (s : State) : (s.setAcc v).period = s.period := rfl
@[simp] theorem State.setAcc_linf (v : Half) (s : State) : (s.setAcc v).linf = s.linf := rfl
@[simp] theorem State.setAcc_rowidx (v : Half) (s : State) : (s.setAcc v).rowidx = s.rowidx := rfl
@[simp] theorem State.setAcc_colidx (v : Half) (s : State) : (s.setAcc v).colidx = s.colidx := rfl
@[simp] theorem State.setAcc_brkt (v : Half) (s : State) : (s.setAcc v).brkt = s.brkt := rfl
@[simp] theorem State.setAcc_tbase (v : Half) (s : State) : (s.setAcc v).tbase = s.tbase := rfl
@[simp] theorem State.setAcc_tlen (v : Half) (s : State) : (s.setAcc v).tlen = s.tlen := rfl
@[simp] theorem State.setAcc_tvalid (v : Half) (s : State) : (s.setAcc v).tvalid = s.tvalid := rfl
@[simp] theorem State.setAcc_err (v : Half) (s : State) : (s.setAcc v).err = s.err := rfl
@[simp] theorem State.setAcc_ecause (v : Half) (s : State) : (s.setAcc v).ecause = s.ecause := rfl
@[simp] theorem State.setAcc_tmem (v : Half) (s : State) : (s.setAcc v).tmem = s.tmem := rfl
@[simp] theorem State.setAcc_colBit7Delta (v : Half) (s : State) : (s.setAcc v).colBit7Delta = s.colBit7Delta := rfl
@[simp] theorem State.setAcc_pending (v : Half) (s : State) : (s.setAcc v).pending = s.pending := rfl
@[simp] theorem State.setAcc_answers (v : Half) (s : State) : (s.setAcc v).answers = s.answers := rfl

/-! `State.setAccCarry` -/

@[simp] theorem State.setAccCarry_acc (r : Half × Bool) (s : State) : (s.setAccCarry r).acc = r.1 := rfl
@[simp] theorem State.setAccCarry_c (r : Half × Bool) (s : State) : (s.setAccCarry r).c = r.2 := rfl
@[simp] theorem State.setAccCarry_bias (r : Half × Bool) (s : State) : (s.setAccCarry r).bias = s.bias := rfl
@[simp] theorem State.setAccCarry_thresh (r : Half × Bool) (s : State) : (s.setAccCarry r).thresh = s.thresh := rfl
@[simp] theorem State.setAccCarry_subtr (r : Half × Bool) (s : State) : (s.setAccCarry r).subtr = s.subtr := rfl
@[simp] theorem State.setAccCarry_scale (r : Half × Bool) (s : State) : (s.setAccCarry r).scale = s.scale := rfl
@[simp] theorem State.setAccCarry_period (r : Half × Bool) (s : State) : (s.setAccCarry r).period = s.period := rfl
@[simp] theorem State.setAccCarry_linf (r : Half × Bool) (s : State) : (s.setAccCarry r).linf = s.linf := rfl
@[simp] theorem State.setAccCarry_rowidx (r : Half × Bool) (s : State) : (s.setAccCarry r).rowidx = s.rowidx := rfl
@[simp] theorem State.setAccCarry_colidx (r : Half × Bool) (s : State) : (s.setAccCarry r).colidx = s.colidx := rfl
@[simp] theorem State.setAccCarry_brkt (r : Half × Bool) (s : State) : (s.setAccCarry r).brkt = s.brkt := rfl
@[simp] theorem State.setAccCarry_tbase (r : Half × Bool) (s : State) : (s.setAccCarry r).tbase = s.tbase := rfl
@[simp] theorem State.setAccCarry_tlen (r : Half × Bool) (s : State) : (s.setAccCarry r).tlen = s.tlen := rfl
@[simp] theorem State.setAccCarry_tvalid (r : Half × Bool) (s : State) : (s.setAccCarry r).tvalid = s.tvalid := rfl
@[simp] theorem State.setAccCarry_err (r : Half × Bool) (s : State) : (s.setAccCarry r).err = s.err := rfl
@[simp] theorem State.setAccCarry_ecause (r : Half × Bool) (s : State) : (s.setAccCarry r).ecause = s.ecause := rfl
@[simp] theorem State.setAccCarry_tmem (r : Half × Bool) (s : State) : (s.setAccCarry r).tmem = s.tmem := rfl
@[simp] theorem State.setAccCarry_colBit7Delta (r : Half × Bool) (s : State) : (s.setAccCarry r).colBit7Delta = s.colBit7Delta := rfl
@[simp] theorem State.setAccCarry_pending (r : Half × Bool) (s : State) : (s.setAccCarry r).pending = s.pending := rfl
@[simp] theorem State.setAccCarry_answers (r : Half × Bool) (s : State) : (s.setAccCarry r).answers = s.answers := rfl

/-! `State.reject` -/

@[simp] theorem State.reject_acc (cause : Cause) (s : State) : (s.reject cause).acc = s.acc := rfl
@[simp] theorem State.reject_c (cause : Cause) (s : State) : (s.reject cause).c = s.c := rfl
@[simp] theorem State.reject_bias (cause : Cause) (s : State) : (s.reject cause).bias = s.bias := rfl
@[simp] theorem State.reject_thresh (cause : Cause) (s : State) : (s.reject cause).thresh = s.thresh := rfl
@[simp] theorem State.reject_subtr (cause : Cause) (s : State) : (s.reject cause).subtr = s.subtr := rfl
@[simp] theorem State.reject_scale (cause : Cause) (s : State) : (s.reject cause).scale = s.scale := rfl
@[simp] theorem State.reject_period (cause : Cause) (s : State) : (s.reject cause).period = s.period := rfl
@[simp] theorem State.reject_linf (cause : Cause) (s : State) : (s.reject cause).linf = s.linf := rfl
@[simp] theorem State.reject_rowidx (cause : Cause) (s : State) : (s.reject cause).rowidx = s.rowidx := rfl
@[simp] theorem State.reject_colidx (cause : Cause) (s : State) : (s.reject cause).colidx = s.colidx := rfl
@[simp] theorem State.reject_brkt (cause : Cause) (s : State) : (s.reject cause).brkt = s.brkt := rfl
@[simp] theorem State.reject_tbase (cause : Cause) (s : State) : (s.reject cause).tbase = s.tbase := rfl
@[simp] theorem State.reject_tlen (cause : Cause) (s : State) : (s.reject cause).tlen = s.tlen := rfl
@[simp] theorem State.reject_tvalid (cause : Cause) (s : State) : (s.reject cause).tvalid = s.tvalid := rfl
@[simp] theorem State.reject_err (cause : Cause) (s : State) : (s.reject cause).err = true := rfl
@[simp] theorem State.reject_ecause (cause : Cause) (s : State) : (s.reject cause).ecause = causeCode cause := rfl
@[simp] theorem State.reject_tmem (cause : Cause) (s : State) : (s.reject cause).tmem = s.tmem := rfl
@[simp] theorem State.reject_colBit7Delta (cause : Cause) (s : State) : (s.reject cause).colBit7Delta = s.colBit7Delta := rfl
@[simp] theorem State.reject_pending (cause : Cause) (s : State) : (s.reject cause).pending = s.pending := rfl
@[simp] theorem State.reject_answers (cause : Cause) (s : State) : (s.reject cause).answers = s.answers := rfl

/-! `State.clearError` -/

@[simp] theorem State.clearError_acc (s : State) : (s.clearError).acc = s.acc := rfl
@[simp] theorem State.clearError_c (s : State) : (s.clearError).c = s.c := rfl
@[simp] theorem State.clearError_bias (s : State) : (s.clearError).bias = s.bias := rfl
@[simp] theorem State.clearError_thresh (s : State) : (s.clearError).thresh = s.thresh := rfl
@[simp] theorem State.clearError_subtr (s : State) : (s.clearError).subtr = s.subtr := rfl
@[simp] theorem State.clearError_scale (s : State) : (s.clearError).scale = s.scale := rfl
@[simp] theorem State.clearError_period (s : State) : (s.clearError).period = s.period := rfl
@[simp] theorem State.clearError_linf (s : State) : (s.clearError).linf = s.linf := rfl
@[simp] theorem State.clearError_rowidx (s : State) : (s.clearError).rowidx = s.rowidx := rfl
@[simp] theorem State.clearError_colidx (s : State) : (s.clearError).colidx = s.colidx := rfl
@[simp] theorem State.clearError_brkt (s : State) : (s.clearError).brkt = s.brkt := rfl
@[simp] theorem State.clearError_tbase (s : State) : (s.clearError).tbase = s.tbase := rfl
@[simp] theorem State.clearError_tlen (s : State) : (s.clearError).tlen = s.tlen := rfl
@[simp] theorem State.clearError_tvalid (s : State) : (s.clearError).tvalid = s.tvalid := rfl
@[simp] theorem State.clearError_err (s : State) : (s.clearError).err = false := rfl
@[simp] theorem State.clearError_ecause (s : State) : (s.clearError).ecause = 0x00 := rfl
@[simp] theorem State.clearError_tmem (s : State) : (s.clearError).tmem = s.tmem := rfl
@[simp] theorem State.clearError_colBit7Delta (s : State) : (s.clearError).colBit7Delta = s.colBit7Delta := rfl
@[simp] theorem State.clearError_pending (s : State) : (s.clearError).pending = s.pending := rfl
@[simp] theorem State.clearError_answers (s : State) : (s.clearError).answers = s.answers := rfl

/-! `State.tableWrite` -/

@[simp] theorem State.tableWrite_acc (a : Half) (v : Byte) (s : State) : (s.tableWrite a v).acc = s.acc := rfl
@[simp] theorem State.tableWrite_c (a : Half) (v : Byte) (s : State) : (s.tableWrite a v).c = s.c := rfl
@[simp] theorem State.tableWrite_bias (a : Half) (v : Byte) (s : State) : (s.tableWrite a v).bias = s.bias := rfl
@[simp] theorem State.tableWrite_thresh (a : Half) (v : Byte) (s : State) : (s.tableWrite a v).thresh = s.thresh := rfl
@[simp] theorem State.tableWrite_subtr (a : Half) (v : Byte) (s : State) : (s.tableWrite a v).subtr = s.subtr := rfl
@[simp] theorem State.tableWrite_scale (a : Half) (v : Byte) (s : State) : (s.tableWrite a v).scale = s.scale := rfl
@[simp] theorem State.tableWrite_period (a : Half) (v : Byte) (s : State) : (s.tableWrite a v).period = s.period := rfl
@[simp] theorem State.tableWrite_linf (a : Half) (v : Byte) (s : State) : (s.tableWrite a v).linf = s.linf := rfl
@[simp] theorem State.tableWrite_rowidx (a : Half) (v : Byte) (s : State) : (s.tableWrite a v).rowidx = s.rowidx := rfl
@[simp] theorem State.tableWrite_colidx (a : Half) (v : Byte) (s : State) : (s.tableWrite a v).colidx = s.colidx := rfl
@[simp] theorem State.tableWrite_brkt (a : Half) (v : Byte) (s : State) : (s.tableWrite a v).brkt = s.brkt := rfl
@[simp] theorem State.tableWrite_tbase (a : Half) (v : Byte) (s : State) : (s.tableWrite a v).tbase = s.tbase := rfl
@[simp] theorem State.tableWrite_tlen (a : Half) (v : Byte) (s : State) : (s.tableWrite a v).tlen = s.tlen := rfl
@[simp] theorem State.tableWrite_tvalid (a : Half) (v : Byte) (s : State) : (s.tableWrite a v).tvalid = (s.tvalid && !s.inTable a) := rfl
@[simp] theorem State.tableWrite_err (a : Half) (v : Byte) (s : State) : (s.tableWrite a v).err = s.err := rfl
@[simp] theorem State.tableWrite_ecause (a : Half) (v : Byte) (s : State) : (s.tableWrite a v).ecause = s.ecause := rfl
@[simp] theorem State.tableWrite_tmem (a : Half) (v : Byte) (s : State) : (s.tableWrite a v).tmem = Memory.put s.tmem a.toNat v := rfl
@[simp] theorem State.tableWrite_colBit7Delta (a : Half) (v : Byte) (s : State) : (s.tableWrite a v).colBit7Delta = s.colBit7Delta := rfl
@[simp] theorem State.tableWrite_pending (a : Half) (v : Byte) (s : State) : (s.tableWrite a v).pending = s.pending := rfl
@[simp] theorem State.tableWrite_answers (a : Half) (v : Byte) (s : State) : (s.tableWrite a v).answers = s.answers := rfl

/-! `State.resetRegisters` -/

@[simp] theorem State.resetRegisters_acc (s : State) : (s.resetRegisters).acc = 0 := rfl
@[simp] theorem State.resetRegisters_c (s : State) : (s.resetRegisters).c = false := rfl
@[simp] theorem State.resetRegisters_bias (s : State) : (s.resetRegisters).bias = Config.biasReset := rfl
@[simp] theorem State.resetRegisters_thresh (s : State) : (s.resetRegisters).thresh = Config.threshReset := rfl
@[simp] theorem State.resetRegisters_subtr (s : State) : (s.resetRegisters).subtr = Config.subtrReset := rfl
@[simp] theorem State.resetRegisters_scale (s : State) : (s.resetRegisters).scale = Config.scaleReset := rfl
@[simp] theorem State.resetRegisters_period (s : State) : (s.resetRegisters).period = 0 := rfl
@[simp] theorem State.resetRegisters_linf (s : State) : (s.resetRegisters).linf = 0 := rfl
@[simp] theorem State.resetRegisters_rowidx (s : State) : (s.resetRegisters).rowidx = 0 := rfl
@[simp] theorem State.resetRegisters_colidx (s : State) : (s.resetRegisters).colidx = 0 := rfl
@[simp] theorem State.resetRegisters_brkt (s : State) : (s.resetRegisters).brkt = 0 := rfl
@[simp] theorem State.resetRegisters_tbase (s : State) : (s.resetRegisters).tbase = 0 := rfl
@[simp] theorem State.resetRegisters_tlen (s : State) : (s.resetRegisters).tlen = 0 := rfl
@[simp] theorem State.resetRegisters_tvalid (s : State) : (s.resetRegisters).tvalid = false := rfl
@[simp] theorem State.resetRegisters_err (s : State) : (s.resetRegisters).err = false := rfl
@[simp] theorem State.resetRegisters_ecause (s : State) : (s.resetRegisters).ecause = 0 := rfl
@[simp] theorem State.resetRegisters_tmem (s : State) : (s.resetRegisters).tmem = s.tmem := rfl
@[simp] theorem State.resetRegisters_colBit7Delta (s : State) : (s.resetRegisters).colBit7Delta = s.colBit7Delta := rfl
@[simp] theorem State.resetRegisters_pending (s : State) : (s.resetRegisters).pending = s.pending := rfl
@[simp] theorem State.resetRegisters_answers (s : State) : (s.resetRegisters).answers = s.answers := rfl

end Sys2Proof.Machine
end

