-- ==== Sys2Proof/Laws/Memory.lean ====
section
/-! SUPPORT. The table memory: read after write, and the canonical form that every write keeps (log 2). -/

namespace Sys2Proof.Machine

theorem Memory.find_put_same (m : Memory) (a : Nat) (v : Byte) : Memory.find (Memory.put m a v) a = some v := by
  induction m with
  | nil => simp [Memory.put, Memory.find]
  | cons kw m ih =>
    obtain ⟨k, w⟩ := kw
    unfold Memory.put
    split_ifs with h1 h2
    · simp [Memory.find]
    · simp [Memory.find]
    · simp [Memory.find, Ne.symm h2, ih]

theorem Memory.find_put_other (m : Memory) {a b : Nat} (v : Byte) (h : b ≠ a) :
    Memory.find (Memory.put m a v) b = Memory.find m b := by
  induction m with
  | nil => simp [Memory.put, Memory.find, Ne.symm h]
  | cons kw m ih =>
    obtain ⟨k, w⟩ := kw
    unfold Memory.put
    split_ifs with h1 h2
    · simp [Memory.find, Ne.symm h]
    · subst h2
      simp [Memory.find, Ne.symm h]
    · simp [Memory.find, ih]

theorem Memory.wfFrom_cons (lo k : Nat) (w : Byte) (m : Memory) :
    Memory.wfFrom lo ((k, w) :: m) = true ↔ lo ≤ k ∧ k < 65536 ∧ Memory.wfFrom (k + 1) m = true := by
  simp only [Memory.wfFrom, Bool.and_eq_true, decide_eq_true_eq, and_assoc]
  rfl

theorem Memory.put_wfFrom {lo a : Nat} (v : Byte) (m : Memory) (hlo : lo ≤ a) (ha : a < 65536)
    (hm : Memory.wfFrom lo m = true) : Memory.wfFrom lo (Memory.put m a v) = true := by
  induction m generalizing lo with
  | nil => simp [Memory.put, Memory.wfFrom, Config.tmemBytes, hlo, ha]
  | cons kw m ih =>
    obtain ⟨k, w⟩ := kw
    obtain ⟨h1, h2, h3⟩ := (Memory.wfFrom_cons ..).mp hm
    unfold Memory.put
    split_ifs with hlt heq
    · exact (Memory.wfFrom_cons ..).mpr ⟨hlo, ha, (Memory.wfFrom_cons ..).mpr ⟨by omega, h2, h3⟩⟩
    · subst heq
      exact (Memory.wfFrom_cons ..).mpr ⟨h1, h2, h3⟩
    · exact (Memory.wfFrom_cons ..).mpr ⟨h1, h2, ih (by omega) h3⟩

/-- A write of one byte keeps the canonical form. -/
theorem Memory.put_wf {m : Memory} (a : Half) (v : Byte) (hm : Memory.wf m = true) :
    Memory.wf (Memory.put m a.toNat v) = true :=
  Memory.put_wfFrom v m (Nat.zero_le _) a.isLt hm

/-- The memory of the reset state has the canonical form. -/
theorem State.reset_memory_wf : Memory.wf State.reset.tmem = true := rfl

/-- A table write, its own byte: read after write (R61, R62). -/
theorem State.memRead1_tableWrite_same (s : State) (a : Half) (v : Byte) :
    (s.tableWrite a v).memRead1 a.toNat = v := by
  have h : (mod16 a.toNat).toNat = a.toNat := by
    have := a.isLt
    rw [mod16_toNat]
    omega
  simp [State.memRead1, h, Memory.find_put_same]

/-- A table write, every other address (R62). -/
theorem State.memRead1_tableWrite_other (s : State) {a : Half} (v : Byte) {b : Nat} (h : b % 65536 ≠ a.toNat) :
    (s.tableWrite a v).memRead1 b = s.memRead1 b := by
  simp [State.memRead1, Memory.find_put_other _ v h]

/-- The bytes of the table, as R66 names them. -/
theorem State.inTable_iff (s : State) (a : Half) :
    s.inTable a = true ↔ ∃ i k, i < s.tlen.toNat ∧ k ≤ 3 ∧ a.toNat = (s.tbase.toNat + 4 * i + k) % 65536 := by
  simp only [State.inTable, List.any_eq_true, List.mem_range, beq_iff_eq, State.recAddr, mod16_toNat]
  constructor
  · rintro ⟨i, hi, k, hk, h⟩
    exact ⟨i, k, hi, by omega, h.symm⟩
  · rintro ⟨i, k, hi, hk, h⟩
    exact ⟨i, hi, k, by omega, h.symm⟩

end Sys2Proof.Machine
end

