-- ==== Sys2Proof/Laws/Table.lean ====
section
/-! SUPPORT. The table's records as plain numbers, and the scan and the check over them. -/

namespace Sys2Proof.Machine

/-- A read depends on its address modulo 65536 alone (R12). -/
theorem State.memRead1_congr (s : State) {a b : Nat} (h : a % 65536 = b % 65536) : s.memRead1 a = s.memRead1 b := by
  have : mod16 a = mod16 b := BitVec.eq_of_toNat_eq h
  rw [State.memRead1, State.memRead1, this]

theorem State.memRead1_recAddr (s : State) (i k : Nat) : (s.memRead1 (s.recAddr i k)).toNat = s.recordByte i k := by
  rw [State.recordByte, s.memRead1_congr (b := s.tbase.toNat + 4 * i + k) (by simp [State.recAddr])]

/-- The threshold the engines read is the big-endian number of the record's first two bytes (R65). -/
theorem State.threshold_toNat (s : State) (i : Nat) : (s.threshold i).toNat = s.recordThreshold i := by
  rw [State.threshold, State.memRead2, pair_toNat, State.memRead1_recAddr, State.recordThreshold]
  congr 2
  exact s.memRead1_congr (by simp [State.recAddr])

/-- LOADTBL's check says that no threshold exceeds the next (R142). -/
theorem State.tableOrdered_iff (s : State) (n : Nat) :
    s.tableOrdered n = true ↔ ∀ i, i + 1 < n → s.recordThreshold i ≤ s.recordThreshold (i + 1) := by
  simp only [State.tableOrdered, List.all_eq_true, List.mem_range, decide_eq_true_eq, State.threshold_toNat]
  exact ⟨fun h i hi => h i (by omega), fun h i hi => h i (by omega)⟩

/-- The test of one record is "threshold at or above the period" (R193). -/
theorem State.colTest_carry (s : State) (i : Nat) :
    (s.colTest i).2 = true ↔ s.period.toNat ≤ s.recordThreshold i := by
  rw [State.colTest, (sub16_spec _ _).2, State.threshold_toNat]

/-- Everything the scan can do: it finds nothing when no record from `i` on, `cnt + 1` of them, passes; else it stops at the first
that does, with `i + cnt` unchanged (R197). -/
theorem State.colScan_cases (s : State) (cnt i : Nat) :
    (s.colScan cnt i = none ∧ ∀ j, i ≤ j → j ≤ i + cnt → s.recordThreshold j < s.period.toNat) ∨
    ∃ t, s.colScan cnt i = some t ∧ i ≤ t.i ∧ t.i + t.cnt = i + cnt ∧
      s.period.toNat ≤ s.recordThreshold t.i ∧ t.rem = (s.colTest t.i).1 ∧
      ∀ j, i ≤ j → j < t.i → s.recordThreshold j < s.period.toNat := by
  induction cnt generalizing i with
  | zero =>
    rw [State.colScan]
    split_ifs with h
    · exact .inr ⟨_, rfl, le_refl i, rfl, (s.colTest_carry i).mp h, rfl, fun j h1 h2 => absurd h2 (by simpa using h1)⟩
    · refine .inl ⟨rfl, fun j h1 h2 => ?_⟩
      obtain rfl : j = i := by omega
      exact Nat.lt_of_not_le fun hle => h ((s.colTest_carry j).mpr hle)
  | succ cnt ih =>
    rw [State.colScan]
    split_ifs with h
    · exact .inr ⟨_, rfl, le_refl i, rfl, (s.colTest_carry i).mp h, rfl, fun j h1 h2 => absurd h2 (by simpa using h1)⟩
    · have hi : s.recordThreshold i < s.period.toNat :=
        Nat.lt_of_not_le fun hle => h ((s.colTest_carry i).mpr hle)
      have hother (j : Nat) (h1 : i ≤ j) : j = i ∨ i + 1 ≤ j := by omega
      obtain ⟨h1, h2⟩ | ⟨t, h1, h2, h3, h4, h5, h6⟩ := ih (i + 1)
      · refine .inl ⟨h1, fun j hj hj' => ?_⟩
        obtain rfl | hj := hother j hj
        · exact hi
        · exact h2 j hj (by omega)
      · refine .inr ⟨t, h1, by omega, by omega, h4, h5, fun j hj hj' => ?_⟩
        obtain rfl | hj := hother j hj
        · exact hi
        · exact h6 j hj hj'

end Sys2Proof.Machine
end

