-- ==== Sys2Proof/Laws/Engines.lean ====
section
/-! SUPPORT. The engines' functions as the plain numbers of Safety.lean: one lemma per function. -/

namespace Sys2Proof.Machine

theorem linStart_toNat (bias x : Half) : (linStart bias x).toNat = (x.toNat * 8 % 65536 + bias.toNat) % 65536 := by
  simp [linStart, Nat.shiftLeft_eq]

theorem linSquare_toNat (x : Half) : (linSquare x).toNat = squareHigh x.toNat := by
  simp [linSquare, squareHigh]

theorem linAdjust_toNat (t x : Half) : (linAdjust t x).toNat = adjusted t.toNat x.toNat := by
  unfold linAdjust adjusted
  rw [shiftRight1_toNat]
  split_ifs
  · rw [shiftLeft1_toNat, (sub16_spec _ _).1, shiftLeft1_toNat, Nat.mul_comm 2 (_ % 65536), Nat.add_comm 65536]
  · rfl

/-- The loop is square, adjust, square (R166, R167). -/
theorem linearize_eq (bias t x : Half) :
    linearize bias t x = linSquare (linAdjust t (linSquare (linStart bias x))) := rfl

theorem rowProduct_toNat (p l : Half) : (rowProduct p l).toNat = p.toNat * l.toNat / 65536 := by
  simp [rowProduct]

theorem high8_eq_zero_iff (d : Half) : high8 d = 0 ↔ d.toNat / 256 = 0 := by
  rw [← high8_toNat]
  exact ⟨fun h => by rw [h]; rfl, fun h => BitVec.eq_of_toNat_eq h⟩

theorem rowClipped_toNat (scale : Byte) (d : Half) :
    (rowClipped scale d).toNat =
      if d.toNat / 256 ≠ 0 then 0x70 else min (d.toNat % 256 * scale.toNat / 256) 0x70 := by
  have hs : (rowScaled scale d).toNat = d.toNat % 256 * scale.toNat / 256 := by simp [rowScaled]
  have hc : Config.rowClip.toNat = 0x70 := rfl
  unfold rowClipped
  simp only [ne_eq, high8_eq_zero_iff, hs, hc]
  split_ifs with h1 h2
  · rw [hs]
    omega
  · rw [hc]
    omega
  · exact hc

/-- ROW's two exits by the carry of `sub16` (R181, R183). -/
theorem rowIndex_cases (p l subtr : Half) (scale : Byte) :
    ((rowProduct p l).toNat < subtr.toNat ∧ rowIndex p l subtr scale = 0x00) ∨
    (subtr.toNat ≤ (rowProduct p l).toNat ∧
      rowIndex p l subtr scale = rowClipped scale (shiftRight1 (sub16 (rowProduct p l) subtr).1)) := by
  have hc := (sub16_spec (rowProduct p l) subtr).2
  by_cases h : subtr.toNat ≤ (rowProduct p l).toNat
  · exact .inr ⟨h, by simp only [rowIndex, hc.mpr h, if_true]⟩
  · have h0 : (sub16 (rowProduct p l) subtr).2 = false := Bool.eq_false_iff.mpr fun ht => h (hc.mp ht)
    exact .inl ⟨Nat.lt_of_not_le h, by simp [rowIndex, h0]⟩

theorem colDelta_toNat (p : ColBit7Delta) (control : Byte) (rem : Half) :
    (colDelta p control rem).toNat = deltaResult p control.toNat rem.toNat := by
  have hlt := control.isLt
  have h7 : control.getLsbD 7 = decide (0x80 ≤ control.toNat) := by
    rw [BitVec.getLsbD, Nat.testBit_eq_decide_div_mod_eq, decide_eq_decide]
    omega
  unfold colDelta deltaResult
  by_cases h : 0x80 ≤ control.toNat
  · simp only [h7, h, decide_true, if_true]
    cases p <;> simp
  · have h6 : control.getLsbD 6 = decide (0x40 ≤ control.toNat) := by
      rw [BitVec.getLsbD, Nat.testBit_eq_decide_div_mod_eq, decide_eq_decide]
      omega
    simp only [h7, h, h6, decide_false, if_false]
    by_cases h' : 0x40 ≤ control.toNat <;> simp [h']

theorem colUpper_toNat (cnt : Nat) : (colUpper cnt).toNat = 16 * (cnt % 16) := by
  rw [colUpper, mod8_toNat, Nat.shiftLeft_eq]
  omega

theorem State.colWeighted_toNat (s : State) (t : ColStop) :
    (s.colWeighted t).toNat =
      deltaResult s.colBit7Delta (s.recordByte t.i 2) t.rem.toNat * s.recordByte t.i 3 / 256 := by
  rw [State.colWeighted, high8_toNat, mul8x8_toNat, colDelta_toNat, State.controlByte, State.multiplier,
    State.memRead1_recAddr, State.memRead1_recAddr]

/-- The scan sees a state through its tests alone. -/
theorem State.colScan_congr {s s' : State} (h : ∀ i, s'.colTest i = s.colTest i) (cnt i : Nat) :
    s'.colScan cnt i = s.colScan cnt i := by
  induction cnt generalizing i with
  | zero => rw [State.colScan, State.colScan, h]
  | succ cnt ih => rw [State.colScan, State.colScan, h, ih]

/-- COL's results see a state through its tests, `TLEN` and the weights alone. -/
theorem State.columnIndex_congr {s s' : State} (ht : ∀ i, s'.colTest i = s.colTest i) (hl : s'.tlen = s.tlen)
    (hw : ∀ t, s'.colWeighted t = s.colWeighted t) : s'.columnIndex = s.columnIndex := by
  simp only [State.columnIndex, hl, hw, State.colScan_congr ht]

end Sys2Proof.Machine
end

