-- ==== Sys2Proof/Laws/Step.lean ====
section
/-! SUPPORT. What a step can do: one equation per kind of input, and that an action always gives a next state. -/

namespace Sys2Proof.Machine

/-- Every command gives a next state: it executes, or is rejected (R210, R226). -/
theorem exec_next (i : Instr) (s : State) : ∃ t, exec i s = .next t := by
  cases i with
  | loadtbl n =>
    simp only [exec, execLoadtbl]
    split_ifs <;> exact ⟨_, rfl⟩
  | col =>
    simp only [exec, execCol]
    split_ifs <;> exact ⟨_, rfl⟩
  | _ => exact ⟨_, rfl⟩

/-- Every action is performed (R226). -/
theorem perform_next (a : Action) (s : State) : ∃ t, perform a s = .next t := by
  cases a with
  | submit w =>
    simp only [perform, hostSubmit]
    split
    · exact exec_next _ s
    · exact ⟨_, rfl⟩
  | read r => exact ⟨_, rfl⟩
  | twrite a v => exact ⟨_, rfl⟩
  | reset => exact ⟨_, rfl⟩

theorem step_issued {s : State} {a : Action} {rest : List Input} (h : s.pending = .issued a :: rest) :
    step s = perform a { s with pending := rest } := by
  simp [step, h, accept]

theorem step_early {s : State} {a : Action} {rest : List Input} (h : s.pending = .early a :: rest) :
    step s = .fault .issuedEarly := by
  simp [step, h, accept]

/-- A run goes on from the state its first step answers. -/
theorem run_succ {s t : State} (k : Nat) (h : step s = .next t) : core.run (k + 1) s = core.run k t := by
  have hc : core.step s = .next t := h
  simp only [Host.Core.run, hc]

/-- Performing several actions goes on from the state the first one gives. -/
theorem performAll_cons {a : Action} {s t : State} (as : List Action) (h : perform a s = .next t) :
    performAll (a :: as) s = performAll as t := by
  simp only [performAll, h]

/-- No command touches the host port or the parameter of the block. -/
theorem exec_keeps_port {i : Instr} {s t : State} (h : exec i s = .next t) :
    t.pending = s.pending ∧ t.answers = s.answers ∧ t.colBit7Delta = s.colBit7Delta := by
  cases i with
  | loadtbl n =>
    simp only [exec, execLoadtbl] at h
    split_ifs at h <;> (cases h; exact ⟨rfl, rfl, rfl⟩)
  | col =>
    simp only [exec, execCol] at h
    split_ifs at h <;> (cases h; exact ⟨rfl, rfl, rfl⟩)
  | _ => cases h; exact ⟨rfl, rfl, rfl⟩

/-- What a command does is the same whatever else is pending. -/
theorem exec_setPending {i : Instr} {s t : State} (h : exec i s = .next t) (p : List Input) :
    exec i { s with pending := p } = .next { t with pending := p } := by
  cases i with
  | loadtbl n =>
    have hT : State.tableOrdered { s with pending := p } n.toNat = s.tableOrdered n.toNat := rfl
    simp only [exec, execLoadtbl, hT] at h ⊢
    split_ifs at h ⊢ <;> (cases h; rfl)
  | col =>
    have hC : State.columnIndex { s with pending := p } = s.columnIndex :=
      State.columnIndex_congr (fun _ => rfl) rfl fun _ => rfl
    simp only [exec, execCol, hC] at h ⊢
    split_ifs at h ⊢ <;> (cases h; rfl)
  | _ => cases h; rfl

/-- What an action does is the same whatever else is pending: the port is the host's. -/
theorem perform_setPending {a : Action} {s t : State} (h : perform a s = .next t) (p : List Input) :
    perform a { s with pending := p } = .next { t with pending := p } := by
  cases a with
  | submit w =>
    simp only [perform, hostSubmit] at h ⊢
    cases hd : decode w with
    | rejected c => rw [hd] at h; cases h; rfl
    | command i =>
      rw [hd] at h
      exact exec_setPending h p
  | read r => cases h; rfl
  | twrite a v => cases h; rfl
  | reset => cases h; rfl

/-- An action takes nothing off the port and puts nothing on it. -/
theorem perform_pending {a : Action} {s t : State} (h : perform a s = .next t) : t.pending = s.pending := by
  have h2 : perform a s = .next { t with pending := s.pending } := perform_setPending h s.pending
  rw [h] at h2
  cases t
  cases h2
  rfl

/-- Everything a step that answers a next state can have done. -/
theorem step_cases {s t : State} (h : step s = .next t) :
    (s.pending = [] ∧ t = s) ∨
    (∃ rest, s.pending = .issued .reset :: rest ∧ t = State.resetRegisters { s with pending := rest }) ∨
    (∃ r rest, s.pending = .issued (.read r) :: rest ∧
      t = { s with pending := rest, answers := s.answers ++ [State.readReg { s with pending := rest } r] }) ∨
    (∃ a v rest, s.pending = .issued (.twrite a v) :: rest ∧ t = State.tableWrite a v { s with pending := rest }) ∨
    (∃ w rest c, s.pending = .issued (.submit w) :: rest ∧ decode w = .rejected c ∧
      t = State.reject c { s with pending := rest }) ∨
    (∃ w rest i, s.pending = .issued (.submit w) :: rest ∧ decode w = .command i ∧
      exec i { s with pending := rest } = .next t) := by
  rcases hp : s.pending with _ | ⟨a | a, rest⟩
  · simp only [step, hp] at h
    cases h
    exact .inl ⟨rfl, rfl⟩
  · rw [step_issued hp] at h
    cases a with
    | submit w =>
      simp only [perform, hostSubmit] at h
      split at h
      case h_1 i hd => exact .inr (.inr (.inr (.inr (.inr ⟨w, rest, i, rfl, hd, h⟩))))
      case h_2 c hd =>
        cases h
        exact .inr (.inr (.inr (.inr (.inl ⟨w, rest, c, rfl, hd, rfl⟩))))
    | read r => cases h; exact .inr (.inr (.inl ⟨r, rest, rfl, rfl⟩))
    | twrite a v => cases h; exact .inr (.inr (.inr (.inl ⟨a, v, rest, rfl, rfl⟩)))
    | reset => cases h; exact .inr (.inl ⟨rest, rfl, rfl⟩)
  · rw [step_early hp] at h
    cases h

end Sys2Proof.Machine
end

