-- ==== Sys2Proof/Tests/Slice0.lean ====
section
/-! SUPPORT. Tests of one step or one function each. Expected values come from the spec: the worked encodings of R91, the vectors
and programs of spec/95_test_vectors.md, and the corner cases of the rules named. -/

namespace Sys2Proof.Machine

/-! Helpers. -/

/-- What a result shows of its next state, none when it stops. -/
def seen {α : Type} (o : Result) (f : State → α) : Option α :=
  match o with
  | .next t => some (f t)
  | _ => none

/-- A state with one action at the port. -/
def issue (a : Action) (s : State) : State := { s with pending := [.issued a] }

/-- Reset state with an accumulator and a carry. -/
def withAcc (acc : Half) (c : Bool) : State := { State.reset with acc, c }

/-- Table E of spec/95 section 2.5, at 0x0100. -/
def tableE : Memory :=
  [(0x100, 0x10), (0x101, 0x00), (0x102, 0x00), (0x103, 0x80), (0x104, 0x20), (0x105, 0x00), (0x106, 0x40), (0x107, 0x40)] ++
  [(0x108, 0x40), (0x109, 0x00), (0x10A, 0x80), (0x10B, 0x10), (0x10C, 0x80), (0x10D, 0x00), (0x10E, 0x00), (0x10F, 0xFF)]

/-- Table E written and placed, not yet validated. -/
def placedE : State := { State.reset with tmem := tableE, tbase := 0x0100 }

/-- Table E valid, with a period. -/
def validE (period : Half) : State := { placedE with tlen := 4, tvalid := true, period }

/-- A table of two records whose thresholds decrease, 0x9000 then 0x1000, at 0x0200 (spec/95 section 2.5). -/
def decreasing : State :=
  { State.reset with tmem := [(0x200, 0x90), (0x201, 0x00), (0x204, 0x10), (0x205, 0x00)], tbase := 0x0200 }

/-! Well-formedness: an ill-formed term for each check. -/

theorem test_word_unassigned_opcode_ill_formed : wordWellFormed 0x01000000 = false := by decide
theorem test_word_reserved_ill_formed : wordWellFormed 0x10010000 = false := by decide
theorem test_word_none_form_operand_ill_formed : wordWellFormed 0x16000001 = false := by decide
theorem test_word_imm8_high_ill_formed : wordWellFormed 0x11000100 = false := by decide
theorem test_word_well_formed : wordWellFormed 0x110000FF = true := by decide
theorem test_shl_zero_ill_formed : (Pseudo.shl 0).wellFormed = false := by decide
theorem test_shl_sixteen_ill_formed : (Pseudo.shl 16).wellFormed = false := by decide
theorem test_shr_zero_ill_formed : (Pseudo.shr 0).wellFormed = false := by decide
theorem test_shr_sixteen_ill_formed : (Pseudo.shr 16).wellFormed = false := by decide
theorem test_shift_fifteen_well_formed : (Pseudo.shl 15).wellFormed = true ∧ (Pseudo.shr 15).wellFormed = true := by decide

/-! Decoding: each command's word, its fields `OPC`, `RSV`, `IMM` written out from R80, R81 and R85. -/

theorem test_decode_nop : decode (0b00000000#8 ++ 0b00000000#8 ++ 0b0000000000000000#16) = .command .nop := by decide
theorem test_decode_ldacc : decode (0b00010000#8 ++ 0b00000000#8 ++ 0b0001001000110100#16) = .command (.ldacc 0x1234) := by decide
theorem test_decode_ldh : decode (0b00010001#8 ++ 0b00000000#8 ++ 0b0000000010101011#16) = .command (.ldh 0xAB) := by decide
theorem test_decode_ldl : decode (0b00010010#8 ++ 0b00000000#8 ++ 0b0000000011001101#16) = .command (.ldl 0xCD) := by decide
theorem test_decode_add16 : decode (0b00010011#8 ++ 0b00000000#8 ++ 0b0000000000000001#16) = .command (.add16 1) := by decide
theorem test_decode_sub16 : decode (0b00010100#8 ++ 0b00000000#8 ++ 0b0000100111000000#16) = .command (.sub16 0x09C0) := by decide
theorem test_decode_addw : decode (0b00010101#8 ++ 0b00000000#8 ++ 0b0010001001011101#16) = .command (.addw 0x225D) := by decide
theorem test_decode_mul8 : decode (0b00010110#8 ++ 0b00000000#8 ++ 0b0000000000000000#16) = .command .mul8 := by decide
theorem test_decode_shl1 : decode (0b00010111#8 ++ 0b00000000#8 ++ 0b0000000000000000#16) = .command .shl1 := by decide
theorem test_decode_shr1 : decode (0b00011000#8 ++ 0b00000000#8 ++ 0b0000000000000000#16) = .command .shr1 := by decide
theorem test_decode_shr4 : decode (0b00011001#8 ++ 0b00000000#8 ++ 0b0000000000000000#16) = .command .shr4 := by decide
theorem test_decode_setbias : decode (0b00100000#8 ++ 0b00000000#8 ++ 0b0010001001011101#16) = .command (.setbias 0x225D) := by decide
theorem test_decode_setthr : decode (0b00100001#8 ++ 0b00000000#8 ++ 0b0000100111000000#16) = .command (.setthr 0x09C0) := by decide
theorem test_decode_setsub : decode (0b00100010#8 ++ 0b00000000#8 ++ 0b0000000000011110#16) = .command (.setsub 0x001E) := by decide
theorem test_decode_setscl : decode (0b00100011#8 ++ 0b00000000#8 ++ 0b0000000010110010#16) = .command (.setscl 0xB2) := by decide
theorem test_decode_setper : decode (0b00100100#8 ++ 0b00000000#8 ++ 0b0001000000000000#16) = .command (.setper 0x1000) := by decide
theorem test_decode_setlinf : decode (0b00100101#8 ++ 0b00000000#8 ++ 0b0000100101111000#16) = .command (.setlinf 0x0978) := by decide
theorem test_decode_settbase : decode (0b00100110#8 ++ 0b00000000#8 ++ 0b0000000100000000#16) = .command (.settbase 0x0100) := by decide
theorem test_decode_loadtbl : decode (0b00100111#8 ++ 0b00000000#8 ++ 0b0000000000010000#16) = .command (.loadtbl 16) := by decide
theorem test_decode_clrerr : decode (0b00101000#8 ++ 0b00000000#8 ++ 0b0000000000000000#16) = .command .clrerr := by decide
theorem test_decode_lin : decode (0b00110000#8 ++ 0b00000000#8 ++ 0b0000001111111111#16) = .command (.lin 0x03FF) := by decide
theorem test_decode_row : decode (0b00110001#8 ++ 0b00000000#8 ++ 0b0000000000000000#16) = .command .row := by decide
theorem test_decode_col : decode (0b00110010#8 ++ 0b00000000#8 ++ 0b0000000000000000#16) = .command .col := by decide
/-- The opcode is checked before the reserved bits (R83). -/
theorem test_decode_opcode_first : decode 0xFFFFFFFF = .rejected .illegalOpcode := by decide
theorem test_decode_reserved : decode 0x10FF5678 = .rejected .reservedBits := by decide
theorem test_decode_bytes_high_first :
    decodeBytes [0x10, 0x00, 0x12, 0x34, 0x16] = some (.command (.ldacc 0x1234), [0x16]) := by decide
theorem test_decode_table_word : decodeTableWord 32 0x27000004 = some (.loadtbl 4) := by decide
theorem test_encode_loadtbl : encode (.loadtbl 4) = 0x27000004 := by decide

/-! ALU commands (spec/95 section 2.2). -/

theorem test_nop : seen (exec .nop (withAcc 0x1234 true)) (fun t => (t.acc, t.c)) = some (0x1234, true) := by decide
theorem test_ldacc_keeps_carry : seen (exec (.ldacc 0) (withAcc 0xFFFF true)) (fun t => (t.acc, t.c)) = some (0x0000, true) := by decide
theorem test_ldh_keeps_low : seen (exec (.ldh 0xAB) (withAcc 0x1234 false)) (fun t => (t.acc, t.c)) = some (0xAB34, false) := by decide
theorem test_ldl_keeps_high : seen (exec (.ldl 0xCD) (withAcc 0xAB34 false)) (fun t => (t.acc, t.c)) = some (0xABCD, false) := by decide
theorem test_add16_carries : seen (exec (.add16 1) (withAcc 0xFFFF false)) (fun t => (t.acc, t.c)) = some (0x0000, true) := by decide
theorem test_add16_no_carry_in : seen (exec (.add16 1) (withAcc 0xFFFE true)) (fun t => (t.acc, t.c)) = some (0xFFFF, false) := by decide
theorem test_sub16_equal_no_borrow : seen (exec (.sub16 0x1234) (withAcc 0x1234 false)) (fun t => (t.acc, t.c)) = some (0x0000, true) := by decide
theorem test_sub16_borrows : seen (exec (.sub16 0xFFFF) (withAcc 0x0000 true)) (fun t => (t.acc, t.c)) = some (0x0001, false) := by decide
theorem test_addw_keeps_carry : seen (exec (.addw 0x225D) (withAcc 0x1FF8 true)) (fun t => (t.acc, t.c)) = some (0x4255, true) := by decide
theorem test_mul8_largest : seen (exec .mul8 (withAcc 0xFFFF false)) (fun t => (t.acc, t.c)) = some (0xFE01, false) := by decide
theorem test_mul8 : seen (exec .mul8 (withAcc 0xFFB2 false)) (fun t => (t.acc, t.c)) = some (0xB14E, false) := by decide
theorem test_shl1_drops_top : seen (exec .shl1 (withAcc 0x8000 false)) (fun t => (t.acc, t.c)) = some (0x0000, false) := by decide
theorem test_shr1_no_sign : seen (exec .shr1 (withAcc 0xFFFF false)) (fun t => (t.acc, t.c)) = some (0x7FFF, false) := by decide
theorem test_shr4 : seen (exec .shr4 (withAcc 0x1FFF false)) (fun t => (t.acc, t.c)) = some (0x01FF, false) := by decide

/-! Configuration (spec/41, spec/95 sections 2.5 and 2.6). -/

theorem test_setbias : seen (exec (.setbias 0x1234) State.reset) State.bias = some 0x1234 := by decide
theorem test_setthr : seen (exec (.setthr 0x09C1) State.reset) State.thresh = some 0x09C1 := by decide
theorem test_setsub : seen (exec (.setsub 0) State.reset) State.subtr = some 0 := by decide
theorem test_setscl : seen (exec (.setscl 0x7F) State.reset) State.scale = some 0x7F := by decide
theorem test_setper : seen (exec (.setper 0x1000) State.reset) State.period = some 0x1000 := by decide
theorem test_setlinf : seen (exec (.setlinf 0x0978) State.reset) State.linf = some 0x0978 := by decide
theorem test_settbase_same_base : seen (exec (.settbase 0x0100) (validE 0)) (fun t => (t.tbase, t.tvalid, t.tlen)) = some (0x0100, false, 4) := by decide
theorem test_loadtbl_accepts : seen (exec (.loadtbl 4) placedE) (fun t => (t.tlen, t.tvalid, t.err)) = some (4, true, false) := by decide
theorem test_loadtbl_rejects_decrease : seen (exec (.loadtbl 2) decreasing) (fun t => (t.tlen, t.tvalid, t.err, t.ecause)) = some (0, false, true, 0x04) := by decide
/-- N = 1 reads never-written bytes and passes whatever they are (R140, spec/95 section 2.5). -/
theorem test_loadtbl_one_record_always : seen (exec (.loadtbl 1) State.reset) (fun t => (t.tlen, t.tvalid)) = some (1, true) := by decide
theorem test_clrerr : seen (exec .clrerr { validE 0 with err := true, ecause := 0x04 }) (fun t => (t.err, t.ecause, t.tvalid)) = some (false, 0x00, true) := by decide

/-! Engines (spec/95 sections 2.3 to 2.5). -/

theorem test_lin_end_of_range : seen (exec (.lin 0x03FF) (withAcc 0x1234 true)) (fun t => (t.linf, t.acc, t.c)) = some (0x0978, 0x1234, true) := by decide
theorem test_lin_wraps : seen (exec (.lin 0x1388) State.reset) State.linf = some 0x051E := by decide
theorem test_row_exact_clip : seen (exec .row { State.reset with period := 0x1000, linf := 0x1620 }) State.rowidx = some 0x70 := by decide
theorem test_row : seen (exec .row { State.reset with period := 0x1E00, linf := 0x0978 }) State.rowidx = some 0x58 := by decide
theorem test_col_bit7_delta : seen (exec .col (validE 0x2001)) (fun t => (t.colidx, t.brkt)) = some (0x1F, 0x10) := by decide
theorem test_col_bit7_delta_high :
    seen (exec .col { validE 0x2001 with colBit7Delta := .high8OfShr4 }) (fun t => (t.colidx, t.brkt)) = some (0x10, 0x10) := by decide

/-! Host actions and the step. -/

theorem test_step_runs_a_word : seen (step (State.reset.withFetchWord 32 0x1000225D)) (fun t => (t.acc, t.pending)) = some (0x225D, []) := by decide
theorem test_step_rejects_a_word : seen (step (issue (.submit 0x11000100) (withAcc 0x1234 true))) (fun t => (t.acc, t.err, t.ecause)) = some (0x1234, true, 0x02) := by decide
theorem test_read_status : seen (step (issue (.read 0x01) { validE 0 with c := true, err := true, ecause := 0x04 })) State.answers = some [0x0007] := by decide
theorem test_read_scale_widened : seen (step (issue (.read 0x06) { State.reset with scale := 0x7F })) State.answers = some [0x007F] := by decide
theorem test_read_unused_number : seen (step (issue (.read 0x0E) { State.reset with tlen := 9 })) State.answers = some [0x0000] := by decide
theorem test_read_last_number : seen (step (issue (.read 0xFF) { State.reset with tlen := 9 })) State.answers = some [0x0000] := by decide
theorem test_read_tlen : seen (step (issue (.read 0x0D) (validE 0))) State.answers = some [0x0004] := by decide
theorem test_twrite_last_table_byte : seen (step (issue (.twrite 0x010F 0xFF) (validE 0))) (fun t => (t.tvalid, t.memRead1 0x010F)) = some (false, 0xFF) := by decide
theorem test_twrite_after_table : seen (step (issue (.twrite 0x0110 0x00) (validE 0))) State.tvalid = some true := by decide
theorem test_reset_keeps_table : seen (step (issue .reset { validE 0x1001 with bias := 0 })) (fun t => (t.bias, t.tvalid, t.tmem)) = some (0x225D, false, tableE) := by decide
theorem test_idle : seen (step (validE 7)) State.period = some 7 := by decide

/-- A table that straddles the top of memory: the second byte of its threshold is at 0x0000 (R68). -/
theorem test_record_wraps :
    State.threshold { State.reset with tmem := [(0x0000, 0x34), (0xFFFF, 0x12)], tbase := 0xFFFF } 0 = 0x1234 := by decide

/-! Assembler (R89, R90). -/

theorem test_assemble_line : assembleText "LDACC #0x225D ; load".toList = some [0x1000225D] := by decide
theorem test_assemble_decimal : assembleText "LOADTBL #4".toList = some [0x27000004] := by decide
theorem test_assemble_pseudo : assembleText "SHR #5".toList = some [0x19000000, 0x18000000] := by decide
theorem test_assemble_two_operands : assembleText "LD8X8 #0xFF, #0xB2".toList = some [0x110000FF, 0x120000B2] := by decide
theorem test_assemble_refuses_wide : assembleText "LDH #0x100".toList = none := by decide
theorem test_assemble_refuses_extra : assembleText "NOP #0".toList = none := by decide
theorem test_assemble_refuses_missing : assembleText "ADD16".toList = none := by decide

/-! Witnesses: for each statement with hypotheses, concrete values that meet them. -/

/-- For each form, a word that meets each premise of `CodedNone`, `CodedImm8` and `CodedImm16`. -/
theorem witness_coded :
    ((0x16000000 : Word).toNat / 0x1000000 = 0x16 ∧ (0x16000000 : Word).toNat % 0x1000000 = 0 ∧
      (0x16800000 : Word).toNat / 0x1000000 = 0x16 ∧ (0x16800000 : Word).toNat % 0x1000000 ≠ 0) ∧
    ((0x110000FF : Word).toNat / 0x1000000 = 0x11 ∧ (0x110000FF : Word).toNat / 0x100 % 0x10000 = 0 ∧
      (0x110001FF : Word).toNat / 0x1000000 = 0x11 ∧ (0x110001FF : Word).toNat / 0x100 % 0x10000 ≠ 0) ∧
    ((0x1000FFFF : Word).toNat / 0x1000000 = 0x10 ∧ (0x1000FFFF : Word).toNat / 0x10000 % 0x100 = 0 ∧
      (0x1001FFFF : Word).toNat / 0x1000000 = 0x10 ∧ (0x1001FFFF : Word).toNat / 0x10000 % 0x100 ≠ 0) := by decide
theorem witness_EncodeOfDecode : decode 0x2700000A = .command (.loadtbl 10) := by decide
theorem witness_DecodeChecksInOrder :
    decode 0x29000000 = .rejected .illegalOpcode ∧ decode 0x28010000 = .rejected .reservedBits ∧
      decode 0x2700FF00 = .rejected .reservedBits ∧ decode 0x32000000 = .command .col := by decide
theorem witness_OpcodeTableRowsAreDisjoint :
    ((0x11000000 : Word), (0xFFFFFF00 : Word)) ∈ opcodeTable ∧ (0x110000AB : Word) &&& 0xFFFFFF00 = 0x11000000 := by decide
theorem witness_StepRunsTheDecodedCommand :
    (issue (.submit 0x16000000) State.reset).pending = [.issued (.submit 0x16000000)] ∧
      decode 0x16000000 = .command .mul8 ∧ decode 0x16000001 = .rejected .reservedBits := by decide
theorem witness_RejectionWritesOnlyErrorAndCause :
    decode 0x1A000000 = .rejected .illegalOpcode ∧ decode 0x10FF0000 = .rejected .reservedBits ∧
      0 + 1 < (2 : Byte).toNat ∧ decreasing.recordThreshold 1 < decreasing.recordThreshold 0 ∧
      State.reset.tvalid = false := by decide
theorem witness_ReadPortMap : 0x0E ≤ (0x0E : Byte).toNat ∧ 0x0E ≤ (0xFF : Byte).toNat ∧
    ∀ r : Fin 14, ((BitVec.ofNat 8 r : Byte)).toNat = r := by decide
theorem witness_ReadAnswersAndChangesNothing :
    (issue (.read 0x0E) State.reset).pending = [.issued (.read 0x0E)] := by decide
theorem witness_TableWriteChangesOneByte :
    (issue (.twrite 0x0110 0) (validE 0)).pending = [.issued (.twrite 0x0110 0)] ∧ (0x010F : Half) ≠ 0x0110 ∧
      (validE 0).inTable 0x010F = true ∧ (validE 0).inTable 0x0110 = false ∧ (validE 0).inTable 0x00FF = false := by decide
theorem witness_ResetSetsRegistersKeepsTable : (issue .reset (validE 0)).pending = [.issued .reset] := by decide
theorem witness_ResetKeepsPortAndParameter :
    ({ State.reset with pending := [.issued .reset, .issued (.read 0)] } : State).pending = .issued .reset :: [.issued (.read 0)] := by decide
theorem witness_IdleBlockHoldsItsState : State.reset.pending = [] := by decide
theorem witness_OnlyAnEarlyActionStops :
    ({ State.reset with pending := [.early .reset] } : State).pending = [.early .reset] := by decide
theorem witness_EveryPendingActionIsPerformed : (issue .reset (withAcc 1 false)).HandshakeKept ∧
    seen (performAll [.submit 0x10000002, .read 0x00] State.reset) (fun t => (t.acc, t.answers)) = some (2, [2]) := by
  refine ⟨fun a h => ?_, by decide⟩
  simp [issue] at h

theorem witness_invariant_validE : (validE 0x2001).Inv := by
  refine ⟨by decide, fun _ => by decide, fun _ i hi => ?_, by decide, by decide, by decide, by decide, by decide⟩
  have h4 : i + 1 < 4 := hi
  have h3 : i < 3 := by omega
  interval_cases i <;> decide
theorem witness_InvariantKeptByEveryStep : (issue (.submit 0x32000000) (validE 0x2001)).Inv ∧
    seen (step (issue (.submit 0x32000000) (validE 0x2001))) State.colidx = some 0x1F := by
  have h := witness_invariant_validE
  exact ⟨⟨h.1, h.2, h.3, h.4, h.5, h.6, h.7, h.8⟩, by decide⟩
theorem witness_LoadtblValidatesTheThresholds :
    ((0 : Byte) = 0) ∧ ((2 : Byte) ≠ 0 ∧ 0 + 1 < (2 : Byte).toNat ∧
      decreasing.recordThreshold 0 > decreasing.recordThreshold 1) ∧
    ((4 : Byte) ≠ 0 ∧ placedE.recordThreshold 0 ≤ placedE.recordThreshold 1 ∧
      placedE.recordThreshold 1 ≤ placedE.recordThreshold 2 ∧ placedE.recordThreshold 2 ≤ placedE.recordThreshold 3) := by decide
theorem witness_TableMustBeLoadedAfterItIsPlaced : (4 : Byte) ≠ 0 ∧
    ∀ i, i + 1 < (4 : Byte).toNat →
      State.recordThreshold { placedE with tbase := 0x0100 } i ≤ State.recordThreshold { placedE with tbase := 0x0100 } (i + 1) := by
  refine ⟨by decide, fun i hi => ?_⟩
  have h4 : i + 1 < 4 := hi
  have h3 : i < 3 := by omega
  interval_cases i <;> decide
theorem witness_LinIgnoresTheTopThreeBits : (0x2000 : Half).toNat % 0x2000 = (0x0000 : Half).toNat % 0x2000 := by decide
theorem witness_LinFirstNonzeroAtSixty :
    State.reset.bias = 0x225D ∧ State.reset.thresh = 0x09C0 ∧ (59 : Half).toNat < 60 := by decide
theorem witness_LinIsMonotoneOverSensorRange :
    State.reset.bias = 0x225D ∧ State.reset.thresh = 0x09C0 ∧ (0 : Half).toNat ≤ (1023 : Half).toNat ∧
      (1023 : Half).toNat ≤ 1023 := by decide

/-- The three exits of ROW: products 0x001D, 0x021E and 0x0164 at the reset calibration (spec/95 section 2.4). -/
theorem witness_RowAgreesWithItsAluProgram :
    (0x001D : Half).toNat = (0x0100 : Half).toNat * (0x1D00 : Half).toNat / 65536 ∧
      (0x021E : Half).toNat = (0x1000 : Half).toNat * (0x21E0 : Half).toNat / 65536 ∧
      (0x0164 : Half).toNat = (0x1000 : Half).toNat * (0x1640 : Half).toNat / 65536 ∧
      seen (execAll [.ldacc 0x001D, .sub16 0x001E] State.reset) State.c = some false ∧
      seen (execAll [.ldacc 0x021E, .sub16 0x001E, .shr1] State.reset) (fun t => (t.c, t.acc)) = some (true, 0x0100) ∧
      seen (execAll [.ldacc 0x0164, .sub16 0x001E, .shr1] State.reset) (fun t => (t.c, t.acc)) = some (true, 0x00A3) := by decide

/-- The scan's end at the first and at the last record, and its exhaustion (R200). -/
theorem witness_ColWeighsTheBracketRecord :
    State.reset.tvalid = false ∧ (validE 0).tvalid = true ∧ 1 ≤ (validE 0).tlen.toNat ∧ (validE 0x1000).EndsAt 0 ∧ (validE 0x8000).EndsAt 3 ∧
      ∀ i, i < (validE 0x8001).tlen.toNat → (validE 0x8001).recordThreshold i < (validE 0x8001).period.toNat := by
  refine ⟨by decide, by decide, by decide, ⟨by decide, by decide, nofun⟩, ⟨by decide, by decide, fun j hj => ?_⟩, fun i hi => ?_⟩
  · interval_cases j <;> decide
  · have h4 : i < 4 := hi
    interval_cases i <;> decide
/-- The scan for 0x2001 stops at record 2, the bracket containing it; the one for 0x8001 finds nothing (R200). -/
theorem witness_ScanEndsAtTheContainingBracket :
    (validE 0x2001).Inv ∧ (validE 0x2001).tvalid = true ∧
      (validE 0x2001).colScan ((validE 0x2001).tlen - 1).toNat 0 = some { i := 2, cnt := 1, rem := 0x1FFF } ∧
      (validE 0x8001).colScan ((validE 0x8001).tlen - 1).toNat 0 = none ∧
      ∀ j, j < (validE 0x2001).tlen.toNat →
        (j < 2 → (validE 0x2001).recordThreshold j < (validE 0x2001).period.toNat) ∧
        (2 ≤ j → (validE 0x2001).period.toNat ≤ (validE 0x2001).recordThreshold j) := by
  refine ⟨witness_invariant_validE, by decide, by decide, by decide, fun j hj => ?_⟩
  have h4 : j < 4 := hj
  interval_cases j <;> decide
theorem witness_AccUsedOnlyByAluAndReset :
    seen (step (issue (.submit 0x10000001) State.reset)) (fun t => decide (t.acc ≠ State.reset.acc)) = some true ∧
      seen (step (issue .reset (withAcc 1 false))) (fun t => decide (t.acc ≠ (withAcc 1 false).acc)) = some true ∧
      ¬(0x10 ≤ (Instr.nop).opcode.toNat) ∧ ¬((Instr.setbias 0).opcode.toNat ≤ 0x19) := by decide
theorem witness_CarryWrittenOnlyByAddSubAndReset :
    seen (step (issue (.submit 0x14000000) State.reset)) (fun t => decide (t.c ≠ State.reset.c)) = some true := by decide
theorem witness_WhatChangesTableValidity :
    placedE.tvalid = false ∧ seen (step (issue (.submit 0x27000004) placedE)) State.tvalid = some true ∧
      (validE 0).tvalid = true ∧ seen (step (issue (.submit 0x26000100) (validE 0))) State.tvalid = some false ∧
      seen (step (issue (.twrite 0x0100 0) (validE 0))) State.tvalid = some false ∧
      seen (step (issue .reset (validE 0))) State.tvalid = some false := by decide
theorem witness_ErrorIsStickyAndHarmless :
    seen (step (issue (.submit 0x28000000) { State.reset with err := true, ecause := 1 })) State.err = some false := by decide
theorem witness_WhoReachesTableMemory :
    (Instr.settbase 0).opcode ≠ 0x27 ∧ (Instr.settbase 0).opcode ≠ 0x32 ∧
    seen (exec .col (validE 0)) (fun t => t.memRead1 0x0100) = some 0x10 ∧
      seen (step (issue (.twrite 0x0100 0x11) (validE 0))) (fun t => decide (t.memRead1 0x0100 ≠ (validE 0).memRead1 0x0100)) = some true := by decide
theorem witness_ResultsWrittenOnlyByTheirCommands :
    seen (step (issue (.submit 0x31000000) { State.reset with period := 0x1000, linf := 0x1000 })) State.rowidx = some 0x4E ∧
      seen (step (issue (.submit 0x32000000) (validE 0x1001))) (fun t => (t.colidx, t.brkt)) = some (0x23, 0x20) ∧
      seen (step (issue (.submit 0x250003FF) State.reset)) State.linf = some 0x03FF := by decide
theorem witness_NoCommandReadsTheCarry :
    (Instr.add16 0).opcode = 0x13 ∧ (Instr.sub16 0).opcode = 0x14 ∧ ¬(Instr.addw 0).opcode = 0x13 ∧ ¬(Instr.addw 0).opcode = 0x14 := by decide

/-- A memory that differs from table E at an offset 2 only. -/
def tableEControl : Memory := Memory.put tableE 0x0102 0xC0

theorem witness_LoadtblReadsOnlyThresholds :
    ∀ i k, i < (4 : Byte).toNat → k ≤ 1 →
      State.recordByte { placedE with tmem := tableEControl } i k = placedE.recordByte i k := by
  intro i k hi hk
  have h4 : i < 4 := hi
  interval_cases i <;> interval_cases k <;> decide

/-- The scan for 0x1001 passes record 0 and ends at record 1, so the control byte of record 0 does not matter (R192). -/
theorem witness_ColReadsOnlyVisitedRecords :
    State.reset.tvalid = false ∧ (validE 0x1001).tvalid = true ∧ 1 ≤ (validE 0x1001).tlen.toNat ∧
      ∀ i, i < (validE 0x1001).tlen.toNat →
        (∀ j, j < i → (validE 0x1001).recordThreshold j < (validE 0x1001).period.toNat) →
        State.recordByte { validE 0x1001 with tmem := tableEControl } i 0 = (validE 0x1001).recordByte i 0 ∧
        State.recordByte { validE 0x1001 with tmem := tableEControl } i 1 = (validE 0x1001).recordByte i 1 ∧
        ((validE 0x1001).period.toNat ≤ (validE 0x1001).recordThreshold i →
          State.recordByte { validE 0x1001 with tmem := tableEControl } i 2 = (validE 0x1001).recordByte i 2 ∧
          State.recordByte { validE 0x1001 with tmem := tableEControl } i 3 = (validE 0x1001).recordByte i 3) := by
  refine ⟨by decide, by decide, by decide, fun i hi _ => ?_⟩
  have h4 : i < 4 := hi
  interval_cases i <;> decide
theorem witness_PseudoInstructionsExpand : (1 ≤ 1 ∧ 1 ≤ 15) ∧ (1 ≤ 15 ∧ 15 ≤ 15) ∧
    seen (execAll (expand (.shl 15)) (withAcc 0x0003 false)) State.acc = some 0x8000 ∧
    seen (execAll (expand (.shr 5)) (withAcc 0xFFFF false)) State.acc = some 0x07FF := by decide
theorem witness_AssemblerChecksOperands :
    (opcodeEntry 0x16).map Entry.form = some .none ∧ (opcodeEntry 0x11).map Entry.form = some .imm8 ∧
      (opcodeEntry 0x10).map Entry.form = some .imm16 ∧
      ((opcodeEntry 0x11).bind fun e => assembleCommand e [0xFF]) = some (.ldh 0xFF) ∧
      ((opcodeEntry 0x10).bind fun e => assembleCommand e [0xFFFF]) = some (.ldacc 0xFFFF) := by decide

end Sys2Proof.Machine
end

section
/-! The state: what each register is written by and read by, the register read port, and the state after reset
(spec/10_state.md R22 to R45). -/

namespace Sys2Proof.Machine

/-! `ACC` and `C` under a command. -/

/-- `ACC` and `C` after a command, from `ACC` and `C` before it (R101 to R110); every other command keeps both (R22, R25). -/
def aluResult : Instr → Half × Bool → Half × Bool
  | .ldacc v, (_, c) => (v, c)
  | .ldh v, (a, c) => (pair v (low8 a), c)
  | .ldl v, (a, c) => (pair (high8 a) v, c)
  | .add16 v, (a, _) => add16 a v
  | .sub16 v, (a, _) => sub16 a v
  | .addw v, (a, c) => (addWrap a v, c)
  | .mul8, (a, c) => (mul8x8 (high8 a) (low8 a), c)
  | .shl1, (a, c) => (shiftLeft1 a, c)
  | .shr1, (a, c) => (shiftRight1 a, c)
  | .shr4, (a, c) => (shiftRight4 a, c)
  | _, r => r

/-- A command takes `ACC` and `C` to `aluResult`, and has the same effect on everything else whatever the two hold. -/
theorem exec_setAccCarry {i : Instr} {s t : State} (h : exec i s = .next t) (r : Half × Bool) :
    exec i (s.setAccCarry r) = .next (t.setAccCarry (aluResult i r)) := by
  cases i with
  | loadtbl n =>
    have hT : (s.setAccCarry r).tableOrdered n.toNat = s.tableOrdered n.toNat := rfl
    simp only [exec, execLoadtbl, hT] at h ⊢
    split_ifs at h ⊢ <;> (cases h; rfl)
  | col =>
    have hC : (s.setAccCarry r).columnIndex = s.columnIndex :=
      State.columnIndex_congr (fun _ => rfl) rfl fun _ => rfl
    simp only [exec, execCol, hC, State.setAccCarry_tvalid] at h ⊢
    split_ifs at h ⊢ <;> (cases h; rfl)
  | _ => cases h; rfl

/-- What a command leaves in `ACC` and `C`. -/
theorem exec_accCarry {i : Instr} {s t : State} (h : exec i s = .next t) :
    (t.acc, t.c) = aluResult i (s.acc, s.c) := by
  have hself : exec i s = .next (t.setAccCarry (aluResult i (s.acc, s.c))) := exec_setAccCarry h (s.acc, s.c)
  exact congrArg (fun u => (u.acc, u.c)) (Host.Outcome.next.inj (h.symm.trans hself))

/-- Outside opcodes 0x10 to 0x19 a command keeps `ACC` and `C` (R22). -/
theorem aluResult_of_not_alu {i : Instr} (hi : ¬(0x10 ≤ i.opcode.toNat ∧ i.opcode.toNat ≤ 0x19)) (r : Half × Bool) :
    aluResult i r = r := by
  cases i with
  | ldacc v | ldh v | ldl v | add16 v | sub16 v | addw v | mul8 | shl1 | shr1 | shr4 => simp [Instr.opcode] at hi
  | _ => rfl

/-- The opcodes 0x13 and 0x14 are ADD16's and SUB16's alone (R85). -/
theorem opcode_add16_or_sub16_iff (i : Instr) :
    i.opcode = 0x13 ∨ i.opcode = 0x14 ↔ ∃ v, i = .add16 v ∨ i = .sub16 v := by
  cases i <;> simp [Instr.opcode]

/-- Every command but ADD16 and SUB16 keeps `C`, and what it leaves in `ACC` does not depend on `C` (R25, R26). -/
theorem aluResult_of_not_add_sub {i : Instr} (hi : ¬∃ v, i = .add16 v ∨ i = .sub16 v) (a : Half) (b c : Bool) :
    aluResult i (a, b) = ((aluResult i (a, c)).1, b) := by
  cases i with
  | add16 v => exact absurd ⟨v, .inl rfl⟩ hi
  | sub16 v => exact absurd ⟨v, .inr rfl⟩ hi
  | _ => rfl

/-- ADD16 and SUB16 take no carry-in (R26). -/
theorem aluResult_of_add_sub {i : Instr} (hi : ∃ v, i = .add16 v ∨ i = .sub16 v) (a : Half) (b c : Bool) :
    aluResult i (a, b) = aluResult i (a, c) := by
  obtain ⟨v, rfl | rfl⟩ := hi <;> rfl

/-- Outside opcodes 0x10 to 0x19 a command leaves `ACC` and `C` (R22, R25). -/
theorem exec_keeps_accCarry_of_not_alu {i : Instr} {s t : State} (h : exec i s = .next t)
    (hi : ¬(0x10 ≤ i.opcode.toNat ∧ i.opcode.toNat ≤ 0x19)) : t.acc = s.acc ∧ t.c = s.c :=
  Prod.mk.inj ((exec_accCarry h).trans (aluResult_of_not_alu hi _))

/-- Every command but ADD16 and SUB16 leaves `C` (R25). -/
theorem exec_c_of_not_add_sub {i : Instr} {s t : State} (h : exec i s = .next t)
    (hi : ¬∃ v, i = .add16 v ∨ i = .sub16 v) : t.c = s.c :=
  congrArg Prod.snd ((exec_accCarry h).trans (aluResult_of_not_add_sub hi _ _ s.c))

/-! The result registers under a command. -/

theorem rowIndex_le (p l subtr : Half) (scale : Byte) : (rowIndex p l subtr scale).toNat ≤ 0x70 := by
  obtain ⟨-, h⟩ | ⟨-, h⟩ := rowIndex_cases p l subtr scale
  · rw [h]
    decide
  · rw [h, rowClipped_toNat]
    split_ifs
    · exact le_refl _
    · exact Nat.min_le_right _ _

/-- Which commands write a result register (R33, R34). -/
theorem exec_result_writers {i : Instr} {s t : State} (h : exec i s = .next t) :
    (t.rowidx = s.rowidx ∨ i = .row ∧ t.rowidx.toNat ≤ 0x70) ∧
    ((t.colidx = s.colidx ∧ t.brkt = s.brkt) ∨ i = .col) ∧
    (t.linf = s.linf ∨ ∃ v, i = .lin v ∨ i = .setlinf v) := by
  cases i with
  | row => cases h; exact ⟨.inr ⟨rfl, rowIndex_le _ _ _ _⟩, .inl ⟨rfl, rfl⟩, .inl rfl⟩
  | col =>
    simp only [exec, execCol] at h
    split_ifs at h <;> (cases h; exact ⟨.inl rfl, .inr rfl, .inl rfl⟩)
  | lin v => cases h; exact ⟨.inl rfl, .inl ⟨rfl, rfl⟩, .inr ⟨v, .inl rfl⟩⟩
  | setlinf v => cases h; exact ⟨.inl rfl, .inl ⟨rfl, rfl⟩, .inr ⟨v, .inr rfl⟩⟩
  | loadtbl n =>
    simp only [exec, execLoadtbl] at h
    split_ifs at h <;> (cases h; exact ⟨.inl rfl, .inl ⟨rfl, rfl⟩, .inl rfl⟩)
  | _ => cases h; exact ⟨.inl rfl, .inl ⟨rfl, rfl⟩, .inl rfl⟩

/-! Registers under a step. -/

/-- `f` reads none of what a host action other than RESET writes by itself: the port, the table memory, `TVALID`, and the
error report of a rejected word. -/
def CommandRegister {α : Type} (f : State → α) : Prop :=
  ∀ s p as m v e c,
    f { s with pending := p, answers := as, tmem := m, tvalid := v, err := e, ecause := c } = f s

theorem commandRegister_acc : CommandRegister State.acc := fun _ _ _ _ _ _ _ => rfl
theorem commandRegister_c : CommandRegister State.c := fun _ _ _ _ _ _ _ => rfl
theorem commandRegister_linf : CommandRegister State.linf := fun _ _ _ _ _ _ _ => rfl
theorem commandRegister_rowidx : CommandRegister State.rowidx := fun _ _ _ _ _ _ _ => rfl
theorem commandRegister_colidx_brkt : CommandRegister fun s => (s.colidx, s.brkt) := fun _ _ _ _ _ _ _ => rfl

/-- A step that changes such a register performs RESET, or a command that changes it. -/
theorem CommandRegister.changed_by_step {α : Type} {f : State → α} (hf : CommandRegister f) {s t : State}
    (h : step s = .next t) (hne : f t ≠ f s) :
    (∃ rest, s.pending = .issued .reset :: rest) ∨
    ∃ w rest i, s.pending = .issued (.submit w) :: rest ∧ decode w = .command i ∧
      exec i { s with pending := rest } = .next t ∧ f t ≠ f { s with pending := rest } := by
  obtain ⟨-, rfl⟩ | ⟨rest, hp, -⟩ | ⟨r, rest, -, rfl⟩ | ⟨a, v, rest, -, rfl⟩ | ⟨w, rest, c, -, -, rfl⟩ |
    ⟨w, rest, i, hp, hd, hx⟩ := step_cases h
  · exact absurd rfl hne
  · exact .inl ⟨rest, hp⟩
  · exact absurd (hf s _ _ _ _ _ _) hne
  · exact absurd (hf s _ _ _ _ _ _) hne
  · exact absurd (hf s _ _ _ _ _ _) hne
  · have hs : f { s with pending := rest } = f s := hf s _ _ _ _ _ _
    exact .inr ⟨w, rest, i, hp, hd, hx, hs ▸ hne⟩

/-! The register read port. -/

/-- Bits 15:3 of the widened `STATUS` read 0 (R36, R42). -/
theorem State.status_high_bits (s : State) {j : Nat} (hj : 3 ≤ j) : (zext16 s.status).getLsbD j = false := by
  obtain ⟨-, -, -, hlt⟩ := s.status_bits
  apply Nat.testBit_eq_false_of_lt
  calc (zext16 s.status).toNat = s.status.toNat := zext16_toNat _
    _ < 2 ^ 3 := hlt
    _ ≤ 2 ^ j := Nat.pow_le_pow_right (by decide) hj

/-- The register numbers above 0x0D read 0 (R42). -/
theorem State.readReg_unassigned (s : State) {r : Byte} (hr : 0x0E ≤ r.toNat) : s.readReg r = 0x0000 := by
  unfold State.readReg
  split
  case h_15 => rfl
  all_goals omega

/-! The statements. -/

/-- Settles O11: each register number read off the map, `STATUS` by its bits. -/
theorem readPortMap : Obligations.ReadPortMap := by
  intro s r
  obtain ⟨hc, hv, he, -⟩ := s.status_bits
  refine ⟨?_, ?_, ?_, ?_, ?_, ?_, ?_, ?_, ?_, ?_, ?_, ?_, ?_, ?_, s.readReg_unassigned⟩ <;> rintro rfl
  case refine_2 => exact ⟨hc, hv, he, fun _ => s.status_high_bits⟩
  case refine_3 => exact zext16_toNat s.ecause
  case refine_7 => exact zext16_toNat s.scale
  case refine_10 => exact zext16_toNat s.rowidx
  case refine_11 => exact zext16_toNat s.colidx
  case refine_12 => exact zext16_toNat s.brkt
  case refine_14 => exact zext16_toNat s.tlen
  all_goals rfl

/-- Settles O45: a command outside the ALU opcodes maps `ACC` and `C` to themselves. -/
theorem accUsedOnlyByAluAndReset : Obligations.AccUsedOnlyByAluAndReset := by
  refine ⟨fun s t h hne => ?_, fun i s a hi => ?_⟩
  · obtain hr | ⟨w, rest, i, hp, hd, hx, hne⟩ := commandRegister_acc.changed_by_step h hne
    · exact .inl hr
    · have hi : 0x10 ≤ i.opcode.toNat ∧ i.opcode.toNat ≤ 0x19 :=
        Decidable.byContradiction fun hi => hne (exec_keeps_accCarry_of_not_alu hx hi).left
      exact .inr ⟨w, rest, i, hp, hd, hi⟩
  · obtain ⟨t, ht⟩ := exec_next i s
    obtain ⟨hacc, hc⟩ := exec_keeps_accCarry_of_not_alu ht hi
    refine ⟨t, ht, hacc, ?_⟩
    calc exec i { s with acc := a } = .next (t.setAccCarry (aluResult i (a, s.c))) := exec_setAccCarry ht (a, s.c)
      _ = .next (t.setAccCarry (a, t.c)) := by rw [aluResult_of_not_alu hi, hc]

/-- Settles O46: every command but ADD16 and SUB16 leaves `C`. -/
theorem carryWrittenOnlyByAddSubAndReset : Obligations.CarryWrittenOnlyByAddSubAndReset := by
  intro s t h hne
  obtain hr | ⟨w, rest, i, hp, hd, hx, hne⟩ := commandRegister_c.changed_by_step h hne
  · exact .inl hr
  · obtain ⟨v, rfl | rfl⟩ : ∃ v, i = .add16 v ∨ i = .sub16 v :=
      Classical.byContradiction fun hi => hne (exec_c_of_not_add_sub hx hi)
    · exact .inr ⟨w, rest, v, hp, .inl hd⟩
    · exact .inr ⟨w, rest, v, hp, .inr hd⟩

/-- Settles O50: for each result register, the command that changes it is one of its writers. -/
theorem resultsWrittenOnlyByTheirCommands : Obligations.ResultsWrittenOnlyByTheirCommands := by
  intro s t h hnr
  refine ⟨fun hne => ?_, fun hne => ?_, fun hne => ?_⟩
  · obtain hr | ⟨w, rest, i, hp, hd, hx, hne⟩ := commandRegister_rowidx.changed_by_step h hne
    · exact absurd hr hnr
    · obtain ⟨hrow, -, -⟩ := exec_result_writers hx
      obtain ⟨rfl, hle⟩ := hrow.resolve_left hne
      exact ⟨hle, w, rest, hp, hd⟩
  · have hpair : (t.colidx, t.brkt) ≠ (s.colidx, s.brkt) := fun he =>
      hne.elim (absurd (congrArg Prod.fst he)) (absurd (congrArg Prod.snd he))
    obtain hr | ⟨w, rest, i, hp, hd, hx, hne⟩ := commandRegister_colidx_brkt.changed_by_step h hpair
    · exact absurd hr hnr
    · obtain ⟨-, hcol, -⟩ := exec_result_writers hx
      obtain rfl := hcol.resolve_left fun ⟨hc, hb⟩ => hne (Prod.ext hc hb)
      exact ⟨w, rest, hp, hd⟩
  · obtain hr | ⟨w, rest, i, hp, hd, hx, hne⟩ := commandRegister_linf.changed_by_step h hne
    · exact absurd hr hnr
    · obtain ⟨-, -, hlinf⟩ := exec_result_writers hx
      obtain ⟨v, rfl | rfl⟩ := hlinf.resolve_left hne
      · exact ⟨w, rest, v, hp, .inl hd⟩
      · exact ⟨w, rest, v, hp, .inr hd⟩

/-- Settles O51: `C` reaches nothing but `aluResult`, where ADD16 and SUB16 overwrite it and the others hand it on. -/
theorem noCommandReadsTheCarry : Obligations.NoCommandReadsTheCarry := by
  intro i s b
  obtain ⟨t, ht⟩ := exec_next i s
  have hb : exec i { s with c := b } = .next (t.setAccCarry (aluResult i (s.acc, b))) :=
    exec_setAccCarry ht (s.acc, b)
  have hacc := exec_accCarry ht
  rw [opcode_add16_or_sub16_iff]
  constructor
  · intro hi
    rw [aluResult_of_add_sub hi s.acc b s.c, ← hacc] at hb
    exact hb.trans ht.symm
  · intro hi
    rw [aluResult_of_not_add_sub hi s.acc b s.c, ← hacc] at hb
    exact ⟨t, ht, hb⟩

/-- Settles O12: the step is the READ on the state with the action taken off the port, which no register shows. -/
theorem readAnswersAndChangesNothing : Obligations.ReadAnswersAndChangesNothing := by
  intro s r rest hp
  rw [step_issued hp]
  rfl

/-- Settles O17: each register's reset value. -/
theorem launchStateIsTheResetState : Obligations.LaunchStateIsTheResetState :=
  ⟨rfl, rfl, rfl, rfl, rfl, rfl, rfl, rfl, rfl, rfl, rfl, rfl, rfl, rfl, rfl, rfl⟩

/-- Settles O21: field by field; the table clauses hold because no table is valid. -/
theorem invariantAfterReset : Obligations.InvariantAfterReset where
  memWf := State.reset_memory_wf
  tableNonempty := nofun
  tableSorted := nofun
  rowClipped := by decide
  causeLegal := by decide
  errHasCause := by decide
  brktNibble := by decide
  brktInCol := by decide

end Sys2Proof.Machine
end

section
/-! The table memory: who writes it, who reads it, and which of its bytes are the table's (spec/20_memory.md R61 to R68). -/

namespace Sys2Proof.Machine

/-! Table memory under a command. -/

/-- A command keeps table memory and has the same effect on everything else whatever it holds, provided that LOADTBL's check
and COL's results, which read it, come out alike. -/
theorem exec_setTmem {i : Instr} {s t : State} {m : Memory} (h : exec i s = .next t)
    (hload : ∀ n, i = .loadtbl n → State.tableOrdered { s with tmem := m } n.toNat = s.tableOrdered n.toNat)
    (hcol : i = .col → s.tvalid = true → State.columnIndex { s with tmem := m } = s.columnIndex) :
    exec i { s with tmem := m } = .next { t with tmem := m } := by
  cases i with
  | loadtbl n =>
    simp only [exec, execLoadtbl, hload n rfl] at h ⊢
    split_ifs at h ⊢ <;> (cases h; rfl)
  | col =>
    simp only [exec, execCol] at h ⊢
    split_ifs at h ⊢ with hv
    · rw [hcol rfl hv]
      cases h
      rfl
    · cases h
      rfl
  | _ => cases h; rfl

/-- No command writes table memory (R61). -/
theorem exec_keeps_tmem {i : Instr} {s t : State} (h : exec i s = .next t) : t.tmem = s.tmem := by
  have hself : exec i s = .next { t with tmem := s.tmem } := exec_setTmem h (fun _ _ => rfl) fun _ _ => rfl
  have ht : t = { t with tmem := s.tmem } := Host.Outcome.next.inj (h.symm.trans hself)
  rw [ht]

/-- A read of table memory sees a state through its table memory alone. -/
theorem State.memRead1_of_tmem_eq {s t : State} (h : t.tmem = s.tmem) (a : Nat) : t.memRead1 a = s.memRead1 a := by
  rw [State.memRead1, State.memRead1, h]

/-- A step that changes table memory performs a TWRITE (R61). -/
theorem tmem_changed_by_step {s t : State} (h : step s = .next t) (hne : t.tmem ≠ s.tmem) :
    ∃ a v rest, s.pending = .issued (.twrite a v) :: rest ∧ t = State.tableWrite a v { s with pending := rest } := by
  obtain ⟨-, rfl⟩ | ⟨rest, -, rfl⟩ | ⟨r, rest, -, rfl⟩ | htwrite | ⟨w, rest, c, -, -, rfl⟩ |
    ⟨w, rest, i, -, -, hx⟩ := step_cases h
  case inr.inr.inr.inl => exact htwrite
  case inr.inr.inr.inr.inr => exact absurd (exec_keeps_tmem hx) hne
  all_goals exact absurd rfl hne

/-- A table write at `a` leaves the byte at every other address of table memory (R62). -/
theorem State.memRead1_tableWrite_of_ne (s : State) {a b : Half} (v : Byte) (h : b ≠ a) :
    (s.tableWrite a v).memRead1 b.toNat = s.memRead1 b.toNat := by
  apply s.memRead1_tableWrite_other v
  rw [Nat.mod_eq_of_lt b.isLt]
  exact fun he => h (BitVec.eq_of_toNat_eq he)

/-! The bytes of the table. -/

/-- The `4 * n` addresses `(base + 4 * i + k) % 65536` are those at a distance below `4 * n` from `base`, round the top of
memory: the distance is `4 * i + k` (R64, R68). -/
theorem exists_record_byte_iff (a base : Half) {n : Nat} (hn : 4 * n ≤ 65536) :
    (∃ i k, i < n ∧ k ≤ 3 ∧ a.toNat = (base.toNat + 4 * i + k) % 65536) ↔ (a - base).toNat < 4 * n := by
  have ha := a.isLt
  have hb := base.isLt
  have hdist : (a - base).toNat = (65536 - base.toNat + a.toNat) % 65536 := BitVec.toNat_sub a base
  constructor
  · rintro ⟨i, k, hi, hk, h⟩
    have : (a - base).toNat = 4 * i + k := by omega
    omega
  · intro h
    exact ⟨(a - base).toNat / 4, (a - base).toNat % 4, by omega, by omega, by omega⟩

/-! The statements. -/

/-- Settles O13: read after write for the byte, and `TVALID` by the bytes of the table. -/
theorem tableWriteChangesOneByte : Obligations.TableWriteChangesOneByte := by
  intro s a v rest hp
  refine ⟨State.tableWrite a v { s with pending := rest }, step_issued hp, rfl,
    State.memRead1_tableWrite_same _ a v,
    fun b hb => State.memRead1_tableWrite_of_ne { s with pending := rest } v hb, ?_⟩
  rw [← s.inTable_iff a, Bool.not_eq_true, ← Bool.not_eq_true', ← Bool.and_eq_true]
  rfl

/-- Settles O14: at most 255 records of 4 bytes never meet themselves round the top of memory. -/
theorem tableBytesAreOneWrappedInterval : Obligations.TableBytesAreOneWrappedInterval := by
  intro s a
  have hlen : 4 * s.tlen.toNat ≤ 65536 := by
    have := s.tlen.isLt
    omega
  rw [s.inTable_iff a, exists_record_byte_iff a s.tbase hlen]

/-- Settles O49: commands keep table memory, a step that changes it is a TWRITE, and only LOADTBL and COL read it. -/
theorem whoReachesTableMemory : Obligations.WhoReachesTableMemory := by
  refine ⟨fun i s t h => State.memRead1_of_tmem_eq (exec_keeps_tmem h), fun s t h a hne => ?_,
    fun i s m hload hcol => ?_, fun s m r => rfl⟩
  · have htmem : t.tmem ≠ s.tmem := fun he => hne (State.memRead1_of_tmem_eq he a.toNat)
    obtain ⟨b, v, rest, hp, rfl⟩ := tmem_changed_by_step h htmem
    obtain rfl : a = b := Decidable.byContradiction fun hab =>
      hne (State.memRead1_tableWrite_of_ne { s with pending := rest } v hab)
    exact ⟨v, rest, hp⟩
  · obtain ⟨t, ht⟩ := exec_next i s
    exact ⟨t, ht, exec_setTmem ht (fun n hi => absurd (congrArg Instr.opcode hi) hload)
      fun hi => absurd (congrArg Instr.opcode hi) hcol⟩

end Sys2Proof.Machine
end

section
/-! The decoder and the encoder: the row of the opcode map under a word's `OPC`, and how many bits of `IMM` its form leaves
to the operand, decide what the word is (spec/30_encoding.md R80 to R91). -/

namespace Sys2Proof

/-! The rows of the opcode map. -/

/-- How many bits of `IMM` a form uses as the operand (R81). -/
def Form.operandBits : Form → Nat
  | .none => 0
  | .imm8 => 8
  | .imm16 => 16

theorem Form.two_pow_operandBits_le (f : Form) : 2 ^ f.operandBits ≤ 0x10000 := by
  cases f <;> decide

/-- The operand of a command fits its form (R81, R82). -/
theorem Instr.imm_lt (i : Instr) : i.imm.toNat < 2 ^ i.form.operandBits := by
  cases i with
  | ldh v | ldl v | setscl v | loadtbl v =>
    rw [Instr.imm, BitVec.toNat_setWidth_of_le (by decide)]
    exact v.isLt
  | nop | mul8 | shl1 | shr1 | shr4 | clrerr | row | col => exact Nat.zero_lt_one
  | ldacc v | add16 v | sub16 v | addw v | setbias v | setthr v | setsub v | setper v | setlinf v | settbase v | lin v =>
    exact v.isLt

/-- Every command has its row (R85). -/
theorem Laws.tableRow (i : Instr) : Laws.TableRow.Statement i :=
  match i with
  | .nop => Laws.TableRow.nop
  | .ldacc imm => Laws.TableRow.ldacc imm
  | .ldh imm => Laws.TableRow.ldh imm
  | .ldl imm => Laws.TableRow.ldl imm
  | .add16 imm => Laws.TableRow.add16 imm
  | .sub16 imm => Laws.TableRow.sub16 imm
  | .addw imm => Laws.TableRow.addw imm
  | .mul8 => Laws.TableRow.mul8
  | .shl1 => Laws.TableRow.shl1
  | .shr1 => Laws.TableRow.shr1
  | .shr4 => Laws.TableRow.shr4
  | .setbias imm => Laws.TableRow.setbias imm
  | .setthr imm => Laws.TableRow.setthr imm
  | .setsub imm => Laws.TableRow.setsub imm
  | .setscl imm => Laws.TableRow.setscl imm
  | .setper imm => Laws.TableRow.setper imm
  | .setlinf imm => Laws.TableRow.setlinf imm
  | .settbase imm => Laws.TableRow.settbase imm
  | .loadtbl n => Laws.TableRow.loadtbl n
  | .clrerr => Laws.TableRow.clrerr
  | .lin sensorSum => Laws.TableRow.lin sensorSum
  | .row => Laws.TableRow.row
  | .col => Laws.TableRow.col

/-- The row under `opc` builds commands of that opcode (R85). -/
theorem rowBuilds_opcode {opc : Byte} {e : Entry} (h : opcodeEntry opc = some e) (v : Half) :
    (Laws.rowBuilds e v).opcode = opc := by
  apply BitVec.eq_of_toNat_eq
  unfold opcodeEntry at h
  split at h <;> cases h
  all_goals
    rename_i hopc
    exact hopc.symm

/-- A row builds a command whose `IMM` is the operand it was given, cut to its form (R81, R82). -/
theorem rowBuilds_imm_toNat {opc : Byte} {e : Entry} (h : opcodeEntry opc = some e) (v : Half) :
    (Laws.rowBuilds e v).imm.toNat = v.toNat % 2 ^ e.form.operandBits := by
  have hv := v.isLt
  unfold opcodeEntry at h
  split at h <;> cases h
  all_goals
    simp only [Laws.rowBuilds, Instr.imm, Entry.form, Form.operandBits, BitVec.toNat_setWidth, BitVec.extractLsb'_toNat,
      Nat.shiftRight_zero, BitVec.ofNat_eq_ofNat, BitVec.toNat_ofNat]
    omega

/-- The word of the command a row builds from an operand that fits its form (R89). -/
theorem encode_rowBuilds_toNat {opc : Byte} {e : Entry} (h : opcodeEntry opc = some e) {v : Half}
    (hv : v.toNat < 2 ^ e.form.operandBits) :
    (encode (Laws.rowBuilds e v)).toNat = opc.toNat * 0x1000000 + v.toNat := by
  rw [encode_toNat, rowBuilds_opcode h, rowBuilds_imm_toNat h, Nat.mod_eq_of_lt hv]

/-- The opcodes of each form (R85). -/
def Form.opcodes : Form → List Nat
  | .none => [0x00, 0x16, 0x17, 0x18, 0x19, 0x28, 0x31, 0x32]
  | .imm8 => [0x11, 0x12, 0x23, 0x27]
  | .imm16 => [0x10, 0x13, 0x14, 0x15, 0x20, 0x21, 0x22, 0x24, 0x25, 0x26, 0x30]

/-- The lists hold exactly the opcodes of the map's rows, by form; a table lookup for each of the 256 opcodes. -/
theorem mem_opcodes_iff (opc : Byte) (f : Form) : opc.toNat ∈ f.opcodes ↔ (opcodeEntry opc).map Entry.form = some f := by
  revert opc
  cases f <;> decide

/-- The unassigned opcodes (R86). -/
theorem opcodeEntry_eq_none_iff (opc : Byte) :
    opcodeEntry opc = none ↔
      (0x01 ≤ opc.toNat ∧ opc.toNat ≤ 0x0F) ∨ (0x1A ≤ opc.toNat ∧ opc.toNat ≤ 0x1F) ∨
        (0x29 ≤ opc.toNat ∧ opc.toNat ≤ 0x2F) ∨ (0x33 ≤ opc.toNat ∧ opc.toNat ≤ 0xFF) := by
  revert opc
  decide

/-! The reserved bits of a word. -/

/-- Below `OPC` a word holds an operand of the form and no other bit: `RSV` and the unused bits of `IMM` are 0 (R81). -/
def ReservedClear (f : Form) (w : Word) : Prop := w.toNat % 0x1000000 < 2 ^ f.operandBits

/-- The same by the fields that the decoder tests (R81, R83). -/
theorem reservedClear_iff (f : Form) (w : Word) :
    ReservedClear f w ↔ rsvField w = 0 ∧ (f = .none → immField w = 0) ∧ (f = .imm8 → immHigh w = 0) := by
  rw [ReservedClear, BitVec.toNat_eq, BitVec.toNat_eq, BitVec.toNat_eq, rsvField_toNat, immField_toNat, immHigh_toNat]
  cases f <;> (simp [Form.operandBits]; omega)

/-- A reserved bit is set in `RSV`, or in the part of `IMM` that the form does not use (R81). -/
theorem not_reservedClear_iff (f : Form) (w : Word) :
    ¬ReservedClear f w ↔ w.toNat / 0x10000 % 0x100 ≠ 0 ∨ (f = .none ∧ w.toNat % 0x10000 ≠ 0) ∨
      (f = .imm8 ∧ w.toNat % 0x10000 / 0x100 ≠ 0) := by
  rw [ReservedClear]
  cases f <;> (simp [Form.operandBits]; omega)

/-- Where the reserved bits are clear, `IMM` is everything below `OPC`, and it fits the form (R80, R81). -/
theorem ReservedClear.immField_toNat {f : Form} {w : Word} (h : ReservedClear f w) :
    (immField w).toNat = w.toNat % 0x1000000 := by
  have hlt : w.toNat % 0x1000000 < 0x10000 := Nat.lt_of_lt_of_le h f.two_pow_operandBits_le
  rw [Sys2Proof.immField_toNat]
  omega

/-! The three outcomes of decoding, in the order of the checks (R83). -/

theorem decode_eq_illegalOpcode_iff (w : Word) :
    decode w = .rejected .illegalOpcode ↔ opcodeEntry (opcField w) = none := by
  obtain ⟨h, hd⟩ | ⟨e, h, ⟨hd, -⟩ | ⟨hd, -⟩⟩ := decode_cases w <;> simp [h, hd]

theorem decode_of_reservedClear {w : Word} {e : Entry} (h : opcodeEntry (opcField w) = some e)
    (hw : ReservedClear e.form w) : decode w = .command (Laws.rowBuilds e (immField w)) := by
  obtain ⟨hr, hn, h8⟩ := (reservedClear_iff ..).mp hw
  obtain ⟨h', -⟩ | ⟨e', h', ⟨-, hr' | ⟨hf, hi⟩ | ⟨hf, hi⟩⟩ | ⟨hd, -⟩⟩ := decode_cases w <;> cases h.symm.trans h'
  · exact absurd hr hr'
  · exact absurd (hn hf) hi
  · exact absurd (h8 hf) hi
  · exact hd

theorem decode_of_not_reservedClear {w : Word} {e : Entry} (h : opcodeEntry (opcField w) = some e)
    (hw : ¬ReservedClear e.form w) : decode w = .rejected .reservedBits := by
  obtain ⟨h', -⟩ | ⟨e', h', ⟨hd, -⟩ | ⟨-, hclear⟩⟩ := decode_cases w <;> cases h.symm.trans h'
  · exact hd
  · exact absurd ((reservedClear_iff ..).mpr hclear) hw

/-- What a word that decodes to a command is (R81, R83). -/
theorem decode_eq_command_iff (w : Word) (i : Instr) :
    decode w = .command i ↔
      ∃ e, opcodeEntry (opcField w) = some e ∧ ReservedClear e.form w ∧ Laws.rowBuilds e (immField w) = i := by
  constructor
  · intro hd
    obtain ⟨-, hd'⟩ | ⟨e, h, ⟨hd', -⟩ | ⟨hd', hclear⟩⟩ := decode_cases w <;> cases hd.symm.trans hd'
    exact ⟨e, h, (reservedClear_iff ..).mpr hclear, rfl⟩
  · rintro ⟨e, h, hw, rfl⟩
    exact decode_of_reservedClear h hw

/-! The fields of a command's word. -/

theorem opcField_encode (i : Instr) : opcField (encode i) = i.opcode := by
  have := i.imm.isLt
  apply BitVec.eq_of_toNat_eq
  rw [opcField_toNat, encode_toNat]
  omega

theorem immField_encode (i : Instr) : immField (encode i) = i.imm := by
  have := i.imm.isLt
  apply BitVec.eq_of_toNat_eq
  rw [immField_toNat, encode_toNat]
  omega

theorem reservedClear_encode (i : Instr) : ReservedClear i.form (encode i) := by
  have himm := i.imm.isLt
  have hlt : (encode i).toNat % 0x1000000 = i.imm.toNat := by
    rw [encode_toNat]
    omega
  rw [ReservedClear, hlt]
  exact i.imm_lt

/-! The bytes of a word. -/

/-- The four bytes of a word, joined in their order, are the word (R80, R88). -/
theorem bytes_append (w : Word) : opcField w ++ rsvField w ++ immHigh w ++ immLow w = w := by
  have join {hi lo len len' : Nat} (h : hi = lo + len') :=
    BitVec.extractLsb'_append_extractLsb'_eq_extractLsb' (x := w) (len₂ := len) h
  rw [opcField, rsvField, immHigh, immLow, join (hi := 24) (lo := 16) (len' := 8) rfl,
    join (hi := 16) (lo := 8) (len' := 8) rfl, join (hi := 8) (lo := 0) (len' := 8) rfl, BitVec.extractLsb'_eq_self]

/-! The rows of spec/opcode_table.json. -/

/-- The match and the mask of a row: `OPC` in the top byte, and a mask of all bits but the operand's (R81, R85). -/
def matchAndMask (opc : Byte) (f : Form) : Word × Word :=
  (opc ++ (0 : BitVec 24), BitVec.allOnes 32 <<< f.operandBits)

/-- Every row of the table is the row of its opcode in the opcode map (R85). -/
theorem eq_matchAndMask_of_mem {r : Word × Word} (h : r ∈ opcodeTable) :
    (opcodeEntry (opcField r.1)).map (fun e => matchAndMask (opcField r.1) e.form) = some r := by
  have hmap : opcodeTable.map (fun r => (opcodeEntry (opcField r.1)).map fun e => matchAndMask (opcField r.1) e.form) =
      opcodeTable.map some := by rfl
  exact List.map_inj_left.mp hmap r h

/-- Every row of the opcode map stands in the table (R85). -/
theorem matchAndMask_mem {opc : Byte} {f : Form} (h : (opcodeEntry opc).map Entry.form = some f) :
    matchAndMask opc f ∈ opcodeTable := by
  revert opc
  cases f <;> decide

theorem mem_opcodeTable_iff (r : Word × Word) :
    r ∈ opcodeTable ↔ ∃ opc e, opcodeEntry opc = some e ∧ matchAndMask opc e.form = r := by
  constructor
  · intro h
    obtain ⟨e, he⟩ := Option.map_eq_some_iff.mp (eq_matchAndMask_of_mem h)
    exact ⟨_, e, he⟩
  · rintro ⟨opc, e, he, rfl⟩
    exact matchAndMask_mem (congrArg (Option.map Entry.form) he)

/-- A word matches a row when it has the row's opcode and only the operand's bits below it. -/
theorem and_mask_eq_match_iff (w : Word) (opc : Byte) (f : Form) :
    w &&& (matchAndMask opc f).2 = (matchAndMask opc f).1 ↔ opcField w = opc ∧ ReservedClear f w := by
  have hw := w.isLt
  have hopc := opc.isLt
  rw [matchAndMask, ← BitVec.shiftLeft_ushiftRight, BitVec.toNat_eq, BitVec.toNat_eq, opcField_toNat, ReservedClear,
    BitVec.toNat_shiftLeft, BitVec.toNat_ushiftRight, BitVec.toNat_append, BitVec.ofNat_eq_ofNat, BitVec.toNat_ofNat,
    Nat.zero_mod, Nat.or_zero, Nat.shiftLeft_eq, Nat.shiftLeft_eq, Nat.shiftRight_eq_div_pow]
  cases f <;> (simp [Form.operandBits]; omega)

/-! The statements. -/

/-- Settles O1: fixed words, evaluated. -/
theorem workedEncodingsDecode : Obligations.WorkedEncodingsDecode := by
  unfold Obligations.WorkedEncodingsDecode
  decide

/-- Settles O2: the word's `OPC` finds the command's row, which builds the command from the word's `IMM`. -/
theorem decodeOfEncode : Obligations.DecodeOfEncode := by
  intro i
  obtain ⟨e, he, hform, hbuilds⟩ := Laws.tableRow i
  rw [decode_eq_command_iff, opcField_encode, immField_encode]
  exact ⟨e, he, hform ▸ reservedClear_encode i, hbuilds⟩

/-- Settles O3: the word and the command's word are both `opc << 24` plus the operand. -/
theorem encodeOfDecode : Obligations.EncodeOfDecode := by
  intro w i hd
  obtain ⟨e, he, hclear, rfl⟩ := (decode_eq_command_iff w i).mp hd
  have himm := hclear.immField_toNat
  apply BitVec.eq_of_toNat_eq
  rw [encode_rowBuilds_toNat he (himm ▸ hclear), opcField_toNat, himm]
  omega

/-- Settles O4: the list that a word's `OPC` stands in is the form of its row, and it stands in none where it has no row. -/
theorem decodeChecksInOrder : Obligations.DecodeChecksInOrder := by
  intro w opc rsv imm noneForm imm8Form imm16Form assigned reserved
  have hmem (f : Form) : opc ∈ f.opcodes ↔ (opcodeEntry (opcField w)).map Entry.form = some f := by
    rw [← mem_opcodes_iff, opcField_toNat]
  cases he : opcodeEntry (opcField w) with
  | none =>
    have hnot (f : Form) : opc ∉ f.opcodes := by simp [hmem, he]
    have hunassigned : ¬assigned := fun h => h.elim (hnot .none) fun h => h.elim (hnot .imm8) (hnot .imm16)
    exact ⟨fun _ => (decode_eq_illegalOpcode_iff w).mpr he, fun h => absurd h hunassigned, fun h => absurd h hunassigned⟩
  | some e =>
    have hform (f : Form) : opc ∈ f.opcodes ↔ e.form = f := by simp [hmem, he]
    have hassigned : assigned := by
      cases hf : e.form with
      | none => exact .inl ((hform .none).mpr hf)
      | imm8 => exact .inr (.inl ((hform .imm8).mpr hf))
      | imm16 => exact .inr (.inr ((hform .imm16).mpr hf))
    have hreserved : reserved ↔ ¬ReservedClear e.form w :=
      (or_congr_right (or_congr (and_congr_left' (hform .none)) (and_congr_left' (hform .imm8)))).trans
        (not_reservedClear_iff e.form w).symm
    refine ⟨fun h => absurd hassigned h, fun _ hr => decode_of_not_reservedClear he (hreserved.mp hr), fun _ hr => ?_⟩
    have hclear : ReservedClear e.form w := not_not.mp fun h => hr (hreserved.mpr h)
    refine ⟨_, decode_of_reservedClear he hclear, ?_, ?_⟩
    · rw [rowBuilds_opcode he, opcField_toNat]
    · rw [rowBuilds_imm_toNat he, Nat.mod_eq_of_lt (hclear.immField_toNat ▸ hclear), immField_toNat]

/-- Settles O5: exactly a word whose `OPC` has no row is rejected so. -/
theorem unassignedOpcodesAreIllegal : Obligations.UnassignedOpcodesAreIllegal := by
  refine ⟨fun w => ?_, ?_⟩
  · rw [decode_eq_illegalOpcode_iff, opcodeEntry_eq_none_iff, opcField_toNat]
  · rfl

/-- Settles O6: both say that the word's `OPC` has a row and that the bits the row's form reserves are clear. -/
theorem decoderAcceptsTheTablesWords : Obligations.DecoderAcceptsTheTablesWords := by
  intro w
  simp only [wordWellFormed, List.any_eq_true, beq_iff_eq, mem_opcodeTable_iff, decode_eq_command_iff]
  constructor
  · rintro ⟨i, e, he, hclear, -⟩
    exact ⟨_, ⟨_, e, he, rfl⟩, (and_mask_eq_match_iff ..).mpr ⟨rfl, hclear⟩⟩
  · rintro ⟨r, ⟨opc, e, he, rfl⟩, hmatch⟩
    obtain ⟨rfl, hclear⟩ := (and_mask_eq_match_iff ..).mp hmatch
    exact ⟨_, e, he, hclear, rfl⟩

/-- Settles O7: both rows are the row of the word's `OPC`. -/
theorem opcodeTableRowsAreDisjoint : Obligations.OpcodeTableRowsAreDisjoint := by
  intro w r q hr hq hwr hwq
  obtain ⟨opc, e, he, rfl⟩ := (mem_opcodeTable_iff r).mp hr
  obtain ⟨opc', e', he', rfl⟩ := (mem_opcodeTable_iff q).mp hq
  obtain ⟨rfl, -⟩ := (and_mask_eq_match_iff ..).mp hwr
  obtain ⟨rfl, -⟩ := (and_mask_eq_match_iff ..).mp hwq
  obtain rfl : e = e' := Option.some.inj (he.symm.trans he')
  rfl

/-- Settles O8: each byte is its field of the word, and the bytes joined are the word. -/
theorem transportCarriesHighByteFirst : Obligations.TransportCarriesHighByteFirst := by
  intro w rest
  constructor
  · simp only [bytesOfWord, List.map_cons, List.map_nil, opcField_toNat, rsvField_toNat, immHigh_toNat, immLow_toNat]
  · simp only [bytesOfWord, List.cons_append, List.nil_append, wordOfBytes, bytes_append]

end Sys2Proof

namespace Sys2Proof.Machine

/-- Settles O9: the step is the SUBMIT on the state with the action taken off the port. -/
theorem stepRunsTheDecodedCommand : Obligations.StepRunsTheDecodedCommand := by
  intro s w rest hp
  rw [step_issued hp]
  refine ⟨fun i hd => ?_, fun c hd => ?_⟩ <;> simp only [perform, hostSubmit, hd]

end Sys2Proof.Machine
end

section
/-! The assembler: pseudo-instructions run command by command, and a row assembles the command it builds
(spec/30_encoding.md R89, R90). -/

namespace Sys2Proof.Machine

/-! Running commands one after another. -/

/-- Running commands one after another goes on from the state the first one gives. -/
theorem execAll_cons {i : Instr} {s t : State} (is : List Instr) (h : exec i s = .next t) :
    execAll (i :: is) s = execAll is t := by
  simp only [execAll, h]

/-- Running a list and then another goes on from the state the first list gives. -/
theorem execAll_append {is : List Instr} {s t : State} (js : List Instr) (h : execAll is s = .next t) :
    execAll (is ++ js) s = execAll js t := by
  induction is generalizing s with
  | nil => cases h; rfl
  | cons i is ih =>
    obtain ⟨u, hu⟩ := exec_next i s
    rw [execAll_cons is hu] at h
    rw [List.cons_append, execAll_cons _ hu, ih h]

/-- Repeating a command that only maps `ACC` repeats the map. -/
theorem execAll_replicate {i : Instr} {f : Half → Half} (h : ∀ s, exec i s = .next (s.setAcc (f s.acc))) (k : Nat)
    (s : State) : execAll (List.replicate k i) s = .next (s.setAcc (f^[k] s.acc)) := by
  induction k generalizing s with
  | zero => rfl
  | succ k ih =>
    rw [List.replicate_succ, execAll_cons _ (h s), ih]
    rfl

theorem iterate_shiftLeft1_toNat (k : Nat) (x : Half) : (shiftLeft1^[k] x).toNat = x.toNat * 2 ^ k % 65536 := by
  induction k with
  | zero =>
    have := x.isLt
    rw [Function.iterate_zero_apply]
    omega
  | succ k ih =>
    rw [Function.iterate_succ_apply', shiftLeft1_toNat, ih, Nat.mul_mod_mod, Nat.mul_left_comm, ← pow_succ']

/-- Repeating a division of the number repeats it in the divisor. -/
theorem iterate_toNat_of_div {f : Half → Half} {m : Nat} (h : ∀ x, (f x).toNat = x.toNat / m) (k : Nat) (x : Half) :
    (f^[k] x).toNat = x.toNat / m ^ k := by
  induction k with
  | zero => rw [pow_zero, Nat.div_one, Function.iterate_zero_apply]
  | succ k ih => rw [Function.iterate_succ_apply', h, ih, Nat.div_div_eq_div_mul, pow_succ]

/-- Shifting by fours and then by ones shifts by the whole count (R90). -/
theorem shiftRight_by_fours_and_ones_toNat (k : Nat) (x : Half) :
    (shiftRight1^[k % 4] (shiftRight4^[k / 4] x)).toNat = x.toNat / 2 ^ k := by
  have hpow : 16 ^ (k / 4) * 2 ^ (k % 4) = 2 ^ k := by
    calc 16 ^ (k / 4) * 2 ^ (k % 4) = (2 ^ 4) ^ (k / 4) * 2 ^ (k % 4) := rfl
      _ = 2 ^ k := by rw [← pow_mul, ← pow_add, Nat.div_add_mod]
  rw [iterate_toNat_of_div shiftRight1_toNat, iterate_toNat_of_div shiftRight4_toNat, Nat.div_div_eq_div_mul, hpow]

/-! Assembling a command. -/

/-- The operand of form `imm8` is the low byte of `IMM` (R82). -/
theorem extractLsb'_ofNat_low (v : Nat) : (BitVec.ofNat 16 v).extractLsb' 0 8 = BitVec.ofNat 8 v := by
  apply BitVec.eq_of_toNat_eq
  rw [BitVec.extractLsb'_toNat, BitVec.toNat_ofNat, BitVec.toNat_ofNat, Nat.shiftRight_zero]
  omega

/-- A row with an operand assembles a value that fits its form and refuses any other (R89). -/
theorem assembleCommand_operand {e : Entry} (he : e.form = .imm8 ∨ e.form = .imm16) (v : Nat) :
    assembleCommand e [v] =
      if v < 2 ^ e.form.operandBits then some (Laws.rowBuilds e (BitVec.ofNat 16 v)) else none := by
  cases e with
  | none i => exact he.elim nofun nofun
  | imm8 mk =>
    rw [assembleCommand, asImm8, apply_ite (Option.map mk), Laws.rowBuilds, extractLsb'_ofNat_low]
    exact if_congr Nat.lt_succ_iff.symm rfl rfl
  | imm16 mk =>
    rw [assembleCommand, asImm16, apply_ite (Option.map mk)]
    exact if_congr Nat.lt_succ_iff.symm rfl rfl

/-! The statements. -/

/-- Settles O54: the expansions run command by command; a shift repeats its command. -/
theorem pseudoInstructionsExpand : Obligations.PseudoInstructionsExpand := by
  intro s
  refine ⟨⟨rfl, rfl⟩, fun k _ _ => ⟨rfl, ?_⟩, fun k _ _ => ⟨rfl, ?_⟩, fun a b => ⟨rfl, ?_⟩, fun _ _ _ _ => ⟨rfl, rfl⟩,
    fun b n => ⟨rfl, ?_⟩⟩
  · exact ⟨_, execAll_replicate (fun _ => rfl) k s, rfl, iterate_shiftLeft1_toNat k s.acc⟩
  · have hfours := execAll_replicate (i := .shr4) (fun _ => rfl) (k / 4) s
    have hones := execAll_replicate (i := .shr1) (fun _ => rfl) (k % 4) (s.setAcc (shiftRight4^[k / 4] s.acc))
    exact ⟨_, (execAll_append _ hfours).trans hones, rfl, shiftRight_by_fours_and_ones_toNat k s.acc⟩
  · refine ⟨_, rfl, rfl, ?_⟩
    simp only [State.setAcc_acc, pair_toNat, accH_toNat, accL_toNat]
    omega
  · obtain ⟨t, ht⟩ := exec_next (.loadtbl n) { s with tbase := b, tvalid := false }
    exact (execAll_cons [] ht).trans ht.symm

/-- Settles O55: a row assembles the command it builds from the operand, and the word of that command is known. -/
theorem assemblerChecksOperands : Obligations.AssemblerChecksOperands := by
  intro opc e hopc
  refine ⟨fun he => ?_, fun he => ⟨?_, fun v u vs => ?_, fun v => ?_⟩⟩
  · cases e with
    | none i =>
      have hword : (encode i).toNat = opc.toNat * 0x1000000 :=
        (encode_rowBuilds_toNat hopc (v := 0) Nat.zero_lt_one).trans (Nat.add_zero _)
      exact ⟨⟨i, rfl, hword⟩, fun _ _ => rfl⟩
    | imm8 mk => cases he
    | imm16 mk => cases he
  · cases e with
    | none i => exact he.elim nofun nofun
    | imm8 mk => rfl
    | imm16 mk => rfl
  · cases e <;> rfl
  · have hbound : v ≤ (if e.form = .imm8 then 0xFF else 0xFFFF) ↔ v < 2 ^ e.form.operandBits := by
      obtain h | h := he <;> rw [h] <;> exact Nat.lt_succ_iff.symm
    rw [hbound, assembleCommand_operand he]
    refine ⟨fun hv => ⟨_, if_pos hv, ?_⟩, fun hv => if_neg hv⟩
    have hval : (BitVec.ofNat 16 v).toNat = v :=
      Nat.mod_eq_of_lt (Nat.lt_of_lt_of_le hv e.form.two_pow_operandBits_le)
    rw [encode_rowBuilds_toNat hopc (hval.symm ▸ hv), hval]

end Sys2Proof.Machine
end

section
/-! The ALU commands and NOP: what a command's row makes of the words of its opcode, and the primitives of the
FixedWidthALU as exact arithmetic and bit by bit (spec/40_alu.md R100 to R113). -/

namespace Sys2Proof.Machine

/-! The words of one opcode. -/

/-- A word under the opcode of a row is the row's command where its reserved bits are clear and is rejected
elsewhere (R81, R83). -/
theorem decode_of_opcode {opc : Nat} {e : Entry} (h : opcodeEntry (BitVec.ofNat 8 opc) = some e) {w : Word}
    (hw : w.toNat / 0x1000000 = opc) :
    (ReservedClear e.form w → decode w = .command (Laws.rowBuilds e (immField w))) ∧
    (¬ReservedClear e.form w → decode w = .rejected .reservedBits) := by
  have hopc : opcField w = BitVec.ofNat 8 opc := by rw [← hw, ← opcField_toNat, BitVec.ofNat_toNat, BitVec.setWidth_eq]
  rw [← hopc] at h
  exact ⟨decode_of_reservedClear h, decode_of_not_reservedClear h⟩

theorem codedNone_of_row {opc : Nat} {i : Instr} (h : opcodeEntry (BitVec.ofNat 8 opc) = some (.none i)) :
    CodedNone opc i := by
  intro w hw
  have hclear : w.toNat % 0x1000000 = 0 ↔ ReservedClear .none w := Nat.lt_one_iff.symm
  rw [ne_eq, hclear]
  exact decode_of_opcode h hw

theorem codedImm8_of_row {opc : Nat} {mk : Byte → Instr} (h : opcodeEntry (BitVec.ofNat 8 opc) = some (.imm8 mk)) :
    CodedImm8 opc mk := by
  intro w hw
  have hclear : w.toNat / 0x100 % 0x10000 = 0 ↔ ReservedClear .imm8 w := by
    simp only [ReservedClear, Form.operandBits]
    omega
  have himm : (immField w).extractLsb' 0 8 = BitVec.ofNat 8 w.toNat :=
    BitVec.eq_of_toNat_eq (by rw [← immLow_eq, immLow_toNat, BitVec.toNat_ofNat])
  rw [ne_eq, hclear, ← himm]
  exact decode_of_opcode h hw

theorem codedImm16_of_row {opc : Nat} {mk : Half → Instr} (h : opcodeEntry (BitVec.ofNat 8 opc) = some (.imm16 mk)) :
    CodedImm16 opc mk := by
  intro w hw
  have hclear : w.toNat / 0x10000 % 0x100 = 0 ↔ ReservedClear .imm16 w := by
    simp only [ReservedClear, Form.operandBits]
    omega
  have himm : immField w = BitVec.ofNat 16 w.toNat :=
    BitVec.eq_of_toNat_eq (by rw [immField_toNat, BitVec.toNat_ofNat])
  rw [ne_eq, hclear, ← himm]
  exact decode_of_opcode h hw

/-! The primitives. -/

/-- The carry is the part of the sum that the 16 bits lose (R112). -/
theorem add16_exact (a b : Half) :
    (add16 a b).1.toNat + 65536 * (add16 a b).2.toNat = a.toNat + b.toNat := by
  have ha := a.isLt
  have hb := b.isLt
  obtain ⟨hsum, hcarry⟩ := add16_spec a b
  rw [hsum]
  cases hc : (add16 a b).2 with
  | false =>
    have : ¬a.toNat + b.toNat > 65535 := by simp [← hcarry, hc]
    rw [Bool.toNat_false]
    omega
  | true =>
    have := hcarry.mp hc
    rw [Bool.toNat_true]
    omega

/-- The difference of `sub16` over the integers (R105). -/
theorem sub16_toInt (a b : Half) : ((sub16 a b).1.toNat : Int) = ((a.toNat : Int) - b.toNat) % 65536 := by
  have ha := a.isLt
  have hb := b.isLt
  rw [(sub16_spec a b).1]
  omega

/-- With a borrow `sub16` is 65536 above the exact difference (R105, R112). -/
theorem sub16_borrow {a b : Half} (h : a.toNat < b.toNat) :
    (sub16 a b).1.toNat = 65536 + a.toNat - b.toNat := by
  rw [(sub16_spec a b).1]
  omega

theorem shiftLeft1_eq (x : Half) : shiftLeft1 x = x <<< 1 := by
  apply BitVec.eq_of_toNat_eq
  rw [shiftLeft1, mod16_toNat, BitVec.toNat_shiftLeft]

/-- `shiftLeft1` moves each bit up one place (R108). -/
theorem shiftLeft1_getLsbD_succ (x : Half) {j : Nat} (hj : j + 1 < 16) :
    (shiftLeft1 x).getLsbD (j + 1) = x.getLsbD j := by
  rw [shiftLeft1_eq, BitVec.getLsbD_shiftLeft]
  simp [hj]

/-- `shiftLeft1` brings in a zero (R108). -/
theorem shiftLeft1_getLsbD_zero (x : Half) : (shiftLeft1 x).getLsbD 0 = false := by
  rw [shiftLeft1_eq, BitVec.getLsbD_shiftLeft]
  rfl

/-- `shiftRight1` moves each bit down one place; bit 16 of a half, which it brings in, reads 0 (R109). -/
theorem shiftRight1_getLsbD (x : Half) (j : Nat) : (shiftRight1 x).getLsbD j = x.getLsbD (j + 1) := by
  rw [shiftRight1, BitVec.getLsbD_ushiftRight, Nat.add_comm]

/-- `shiftRight4` moves each bit down four places; the bits from 16 on, which it brings in, read 0 (R110). -/
theorem shiftRight4_getLsbD (x : Half) (j : Nat) : (shiftRight4 x).getLsbD j = x.getLsbD (j + 4) := by
  rw [shiftRight4, BitVec.getLsbD_ushiftRight, Nat.add_comm]

/-! The statements. -/

/-- Settles O25: the command is `add16` of `ACC`, which takes no carry-in. -/
theorem add16IsExactWithCarry : Obligations.Add16IsExactWithCarry := by
  refine ⟨codedImm16_of_row rfl, fun s v => ⟨s.setAccCarry (add16 s.acc v), rfl, rfl, ?_⟩⟩
  obtain ⟨hsum, hcarry⟩ := add16_spec s.acc v
  exact ⟨hsum, hcarry, add16_exact s.acc v, fun _ => rfl⟩

/-- Settles O26: the command is `sub16` of `ACC`, and its carry tells the difference without a borrow from the one with. -/
theorem sub16CarriesOnNoBorrow : Obligations.Sub16CarriesOnNoBorrow := by
  refine ⟨codedImm16_of_row rfl, fun s v => ⟨s.setAccCarry (sub16 s.acc v), rfl, rfl, ?_⟩⟩
  have hv := v.isLt
  have hcarry := (sub16_spec s.acc v).2
  simp only [State.setAccCarry_acc, State.setAccCarry_c]
  refine ⟨sub16_toInt s.acc v, hcarry, fun hc => ?_, fun hc => ?_, fun _ => rfl⟩
  · have hle := hcarry.mp hc
    rw [sub16_exact hle]
    omega
  · have hlt : s.acc.toNat < v.toNat := by simpa [hc] using hcarry
    rw [sub16_borrow hlt]
    omega

/-- Settles O28: a product of two bytes fits 16 bits. -/
theorem mul8IsExact : Obligations.Mul8IsExact := by
  refine ⟨codedNone_of_row rfl, fun s => ⟨s.setAcc (mul8x8 s.accH s.accL), rfl, rfl, ?_⟩⟩
  have hbound := mul_lt_of_bytes s.accH s.accL
  rw [State.setAcc_acc, mul8x8_toNat]
  refine ⟨?_, hbound, Nat.div_le_div_right hbound⟩
  rw [accH_toNat, accL_toNat]

/-- Settles O29: each command is its primitive shift of `ACC`, known as a number and bit by bit. -/
theorem shiftsMoveBits : Obligations.ShiftsMoveBits := by
  refine ⟨codedNone_of_row rfl, codedNone_of_row rfl, codedNone_of_row rfl, fun s => ⟨?shl1, ?shr1, ?shr4⟩⟩
  case shl1 =>
    refine ⟨s.setAcc (shiftLeft1 s.acc), rfl, rfl, shiftLeft1_toNat s.acc, shiftLeft1_getLsbD_zero s.acc, ?_⟩
    intro j h1 h15
    obtain ⟨k, rfl⟩ := Nat.exists_eq_add_of_le' h1
    exact shiftLeft1_getLsbD_succ s.acc (Nat.lt_succ_of_le h15)
  case shr1 =>
    have hbit := shiftRight1_getLsbD s.acc
    exact ⟨s.setAcc (shiftRight1 s.acc), rfl, rfl, shiftRight1_toNat s.acc,
      (hbit 15).trans (BitVec.getLsbD_of_ge _ _ le_rfl), fun j _ => hbit j⟩
  case shr4 =>
    have hbit := shiftRight4_getLsbD s.acc
    exact ⟨s.setAcc (shiftRight4 s.acc), rfl, rfl, shiftRight4_toNat s.acc,
      fun j hj => (hbit j).trans (BitVec.getLsbD_of_ge _ _ (Nat.add_le_add_right hj 4)), fun j _ => hbit j⟩

/-- Settles O23: the all-zero word is the one word of NOP's row. -/
theorem nopChangesNothing : Obligations.NopChangesNothing := by
  have hcoded : CodedNone 0x00 .nop := codedNone_of_row rfl
  exact ⟨hcoded, (hcoded 0x00000000 rfl).1 rfl, fun _ => rfl⟩

/-- Settles O24: the byte loads join the operand with the other byte of `ACC`. -/
theorem accumulatorLoads : Obligations.AccumulatorLoads := by
  refine ⟨codedImm16_of_row rfl, codedImm8_of_row rfl, codedImm8_of_row rfl, fun s => ⟨fun v => ?ldacc, fun v => ?ldh,
    fun v => ?ldl⟩⟩
  case ldacc => exact ⟨s.setAcc v, rfl, rfl, rfl⟩
  case ldh =>
    refine ⟨s.setAcc (pair v s.accL), rfl, rfl, ?_⟩
    rw [State.setAcc_acc, pair_toNat, accL_toNat]
  case ldl =>
    refine ⟨s.setAcc (pair s.accH v), rfl, rfl, ?_⟩
    rw [State.setAcc_acc, pair_toNat, accH_toNat]

/-- Settles O27: `addWrap` is the sum of `add16` without its carry. -/
theorem addwWrapsAndKeepsCarry : Obligations.AddwWrapsAndKeepsCarry := by
  refine ⟨codedImm16_of_row rfl, fun s v => ?_⟩
  exact ⟨s.setAcc (addWrap s.acc v), s.setAccCarry (add16 s.acc v), rfl, rfl, rfl, addWrap_toNat s.acc v, rfl⟩

end Sys2Proof.Machine
end

section
/-! The configuration and table commands: what LOADTBL checks, what makes a table valid and what ends that, and the invariant
that every step keeps (spec/41_config.md R130 to R150). -/

namespace Sys2Proof.Machine

/-! LOADTBL. -/

/-- LOADTBL without a record (R141). -/
theorem exec_loadtbl_zero (s : State) : exec (.loadtbl 0) s = .next (s.reject .tableEmpty) := rfl

/-- LOADTBL over thresholds that never decrease (R143, R144). -/
theorem exec_loadtbl_of_ordered {s : State} {n : Byte} (hn : n ≠ 0) (ho : s.tableOrdered n.toNat = true) :
    exec (.loadtbl n) s = .next { s with tlen := n, tvalid := true } := by
  simp only [exec, execLoadtbl, if_neg hn, if_pos ho]

/-- LOADTBL over thresholds that decrease somewhere (R142). -/
theorem exec_loadtbl_of_not_ordered {s : State} {n : Byte} (hn : n ≠ 0) (ho : ¬s.tableOrdered n.toNat = true) :
    exec (.loadtbl n) s = .next (s.reject .tableOrder) := by
  simp only [exec, execLoadtbl, if_neg hn, if_neg ho]

/-- Everything LOADTBL can do: it is rejected, or it loads a table that passes the check (R144). -/
theorem exec_loadtbl_cases {s t : State} {n : Byte} (h : exec (.loadtbl n) s = .next t) :
    (∃ c, t = s.reject c) ∨
    (n ≠ 0 ∧ s.tableOrdered n.toNat = true ∧ t = { s with tlen := n, tvalid := true }) := by
  by_cases hn : n = 0
  · rw [hn, exec_loadtbl_zero] at h
    cases h
    exact .inl ⟨_, rfl⟩
  · by_cases ho : s.tableOrdered n.toNat = true
    · rw [exec_loadtbl_of_ordered hn ho] at h
      cases h
      exact .inr ⟨hn, ho, rfl⟩
    · rw [exec_loadtbl_of_not_ordered hn ho] at h
      cases h
      exact .inl ⟨_, rfl⟩

/-- The check sees a state through the first two bytes of the records it covers (R145). -/
theorem State.tableOrdered_congr {s s' : State} {n : Nat}
    (h : ∀ i k, i < n → k ≤ 1 → s'.recordByte i k = s.recordByte i k) : s'.tableOrdered n = s.tableOrdered n := by
  have hthreshold (i : Nat) (hi : i < n) : s'.recordThreshold i = s.recordThreshold i := by
    rw [State.recordThreshold, State.recordThreshold, h i 0 hi (by decide), h i 1 hi (by decide)]
  rw [Bool.eq_iff_iff, State.tableOrdered_iff, State.tableOrdered_iff]
  refine forall₂_congr fun i hi => ?_
  rw [hthreshold i (Nat.lt_of_succ_lt hi), hthreshold (i + 1) hi]

/-! `TVALID`. -/

/-- Which commands write `TVALID` (R146). -/
theorem exec_tvalid_writers {i : Instr} {s t : State} (h : exec i s = .next t) :
    t.tvalid = s.tvalid ∨ (∃ n, i = .loadtbl n ∧ n ≠ 0 ∧ t.tlen = n ∧ t.tvalid = true) ∨
    (∃ v, i = .settbase v ∧ t.tvalid = false) := by
  cases i with
  | settbase v => cases h; exact .inr (.inr ⟨v, rfl, rfl⟩)
  | loadtbl n =>
    obtain ⟨c, rfl⟩ | ⟨hn, -, rfl⟩ := exec_loadtbl_cases h
    · exact .inl rfl
    · exact .inr (.inl ⟨n, rfl, hn, rfl, rfl⟩)
  | col =>
    simp only [exec, execCol] at h
    split_ifs at h <;> (cases h; exact .inl rfl)
  | _ => cases h; exact .inl rfl

/-- What a step can do to `TVALID`: keep it, set it by LOADTBL, or clear it in one of three ways (R146). -/
theorem step_tvalid_cases {s t : State} (h : step s = .next t) :
    t.tvalid = s.tvalid ∨
    (t.tvalid = true ∧ ∃ w rest n, s.pending = .issued (.submit w) :: rest ∧ decode w = .command (.loadtbl n) ∧
      t.tlen = n ∧ n ≠ 0) ∨
    (t.tvalid = false ∧
      ((∃ w rest v, s.pending = .issued (.submit w) :: rest ∧ decode w = .command (.settbase v)) ∨
        (∃ a v rest i k, s.pending = .issued (.twrite a v) :: rest ∧ i < s.tlen.toNat ∧ k ≤ 3 ∧
          a.toNat = (s.tbase.toNat + 4 * i + k) % 65536) ∨
        ∃ rest, s.pending = .issued .reset :: rest)) := by
  obtain ⟨-, rfl⟩ | ⟨rest, hp, rfl⟩ | ⟨r, rest, -, rfl⟩ | ⟨a, v, rest, hp, rfl⟩ | ⟨w, rest, c, -, -, rfl⟩ |
    ⟨w, rest, i, hp, hd, hx⟩ := step_cases h
  · exact .inl rfl
  · exact .inr (.inr ⟨rfl, .inr (.inr ⟨rest, hp⟩)⟩)
  · exact .inl rfl
  · cases ha : s.inTable a with
    | true =>
      obtain ⟨i, k, hi, hk, hak⟩ := (s.inTable_iff a).mp ha
      have hcleared : (s.tvalid && !s.inTable a) = false := by simp [ha]
      exact .inr (.inr ⟨hcleared, .inr (.inl ⟨a, v, rest, i, k, hp, hi, hk, hak⟩)⟩)
    | false =>
      have hkept : (s.tvalid && !s.inTable a) = s.tvalid := by simp [ha]
      exact .inl hkept
  · exact .inl rfl
  · obtain hkept | ⟨n, rfl, hn, hlen, hset⟩ | ⟨v, rfl, hcleared⟩ := exec_tvalid_writers hx
    · exact .inl hkept
    · exact .inr (.inl ⟨hset, w, rest, n, hp, hd, hlen, hn⟩)
    · exact .inr (.inr ⟨hcleared, .inl ⟨w, rest, v, hp, hd⟩⟩)

/-! The invariant under each operation that writes what it speaks of. -/

/-- LOADTBL's check of the whole table is the invariant's order of its thresholds (R142, R146). -/
theorem State.tableOrdered_tlen_iff (s : State) :
    s.tableOrdered s.tlen.toNat = true ↔
      ∀ i, i + 1 < s.tlen.toNat → (s.threshold i).toNat ≤ (s.threshold (i + 1)).toNat := by
  simp only [State.tableOrdered_iff, State.threshold_toNat]

/-- A rejection leaves a cause that is not `NONE` and is one of the five (R211, R214). -/
theorem causeCode_legal (c : Cause) : causeCode c ≠ 0 ∧ (causeCode c).toNat ≤ 5 := by
  cases c <;> decide

theorem State.Inv.reject {s : State} (hs : s.Inv) (c : Cause) : (s.reject c).Inv where
  memWf := hs.memWf
  tableNonempty := hs.tableNonempty
  tableSorted := hs.tableSorted
  rowClipped := hs.rowClipped
  causeLegal := (causeCode_legal c).right
  errHasCause := iff_of_true rfl (causeCode_legal c).left
  brktNibble := hs.brktNibble
  brktInCol := hs.brktInCol

theorem State.Inv.clearError {s : State} (hs : s.Inv) : s.clearError.Inv where
  memWf := hs.memWf
  tableNonempty := hs.tableNonempty
  tableSorted := hs.tableSorted
  rowClipped := hs.rowClipped
  causeLegal := Nat.zero_le 5
  errHasCause := iff_of_false Bool.false_ne_true fun h => h rfl
  brktNibble := hs.brktNibble
  brktInCol := hs.brktInCol

/-- Reset keeps table memory; every other clause is about registers and holds as it does after reset (R240, R241). -/
theorem State.Inv.resetRegisters {s : State} (hs : s.Inv) : s.resetRegisters.Inv :=
  { invariantAfterReset with memWf := hs.memWf, tableNonempty := nofun, tableSorted := nofun }

/-- A write outside the table leaves every byte of its records (R64, R66). -/
theorem State.recordByte_tableWrite_of_not_inTable {s : State} {a : Half} (v : Byte) (ha : s.inTable a = false)
    {i k : Nat} (hi : i < s.tlen.toNat) (hk : k ≤ 3) : (s.tableWrite a v).recordByte i k = s.recordByte i k := by
  have hne : (s.tbase.toNat + 4 * i + k) % 65536 ≠ a.toNat := fun he =>
    Bool.eq_false_iff.mp ha ((s.inTable_iff a).mpr ⟨i, k, hi, hk, he.symm⟩)
  exact congrArg BitVec.toNat (s.memRead1_tableWrite_other v hne)

/-- A host write keeps the invariant: where the table stays valid, the byte is none of the table's (R62, R66). -/
theorem State.Inv.tableWrite {s : State} (hs : s.Inv) (a : Half) (v : Byte) : (s.tableWrite a v).Inv := by
  have hvalid (h : (s.tableWrite a v).tvalid = true) : s.tvalid = true ∧ s.inTable a = false := by
    simpa using h
  refine { hs with
    memWf := Memory.put_wf a v hs.memWf
    tableNonempty := fun h => hs.tableNonempty (hvalid h).left
    tableSorted := fun h => ?_ }
  obtain ⟨htable, ha⟩ := hvalid h
  have hsame : (s.tableWrite a v).tableOrdered s.tlen.toNat = s.tableOrdered s.tlen.toNat :=
    State.tableOrdered_congr fun i k hi hk =>
      State.recordByte_tableWrite_of_not_inTable v ha hi (Nat.le_trans hk (by decide))
  exact (s.tableWrite a v).tableOrdered_tlen_iff.mp
    (hsame.trans (s.tableOrdered_tlen_iff.mpr (hs.tableSorted htable)))

/-- Loading a table keeps the invariant when the check passes (R142, R144). -/
theorem State.Inv.loadTable {s : State} (hs : s.Inv) {n : Byte} (hn : n ≠ 0) (ho : s.tableOrdered n.toNat = true) :
    State.Inv { s with tlen := n, tvalid := true } :=
  { hs with
    tableNonempty := fun _ => Nat.one_le_iff_ne_zero.mpr fun h0 => hn (BitVec.eq_of_toNat_eq h0)
    tableSorted := fun _ => (State.tableOrdered_tlen_iff { s with tlen := n, tvalid := true }).mp ho }

/-- `BRKT` is an upper nibble, and `COLIDX` has every bit of it; both are 0 when the scan is exhausted (R196 to R198). -/
theorem State.columnIndex_nibble (s : State) :
    s.columnIndex.2.toNat % 16 = 0 ∧ s.columnIndex.1 &&& s.columnIndex.2 = s.columnIndex.2 := by
  unfold State.columnIndex
  split
  · decide
  · next t _ =>
    constructor
    · rw [colUpper_toNat, Nat.mul_mod_right]
    · ext j
      simp +contextual

/-! The invariant under a command and under a step. -/

/-- Every command keeps the invariant; those not named write nothing that it speaks of. -/
theorem State.Inv.exec {i : Instr} {s t : State} (hs : s.Inv) (h : exec i s = .next t) : t.Inv := by
  cases i with
  | settbase v => cases h; exact { hs with tableNonempty := nofun, tableSorted := nofun }
  | loadtbl n =>
    obtain ⟨c, rfl⟩ | ⟨hn, ho, rfl⟩ := exec_loadtbl_cases h
    · exact hs.reject c
    · exact hs.loadTable hn ho
  | clrerr => cases h; exact hs.clearError
  | row => cases h; exact { hs with rowClipped := rowIndex_le _ _ _ _ }
  | col =>
    simp only [Machine.exec, execCol] at h
    split_ifs at h <;> cases h
    · obtain ⟨hnibble, hcol⟩ := s.columnIndex_nibble
      exact { hs with brktNibble := hnibble, brktInCol := hcol }
    · exact hs.reject .noTable
  | _ => cases h; exact { hs with }

/-- The invariant does not speak of the port. -/
theorem State.Inv.setPending {s : State} (hs : s.Inv) (p : List Input) : State.Inv { s with pending := p } :=
  { hs with }

/-! The statements. -/

/-- Settles O22: each thing a step can do keeps the invariant. -/
theorem invariantKeptByEveryStep : Obligations.InvariantKeptByEveryStep := by
  intro s t hs h
  obtain ⟨-, rfl⟩ | ⟨rest, -, rfl⟩ | ⟨r, rest, -, rfl⟩ | ⟨a, v, rest, -, rfl⟩ | ⟨w, rest, c, -, -, rfl⟩ |
    ⟨w, rest, i, -, -, hx⟩ := step_cases h
  · exact hs
  · exact (hs.setPending rest).resetRegisters
  · exact { hs with }
  · exact (hs.setPending rest).tableWrite a v
  · exact (hs.setPending rest).reject c
  · exact (hs.setPending rest).exec hx

/-- Settles O32: LOADTBL's check passes exactly where no threshold exceeds the next. -/
theorem loadtblValidatesTheThresholds : Obligations.LoadtblValidatesTheThresholds := by
  refine ⟨codedImm8_of_row rfl, fun s n => ⟨?empty, fun hn hdecrease => ?decreasing, fun hn hordered => ?ordered⟩⟩
  case empty =>
    rintro rfl
    exact exec_loadtbl_zero s
  case decreasing =>
    obtain ⟨i, hi, hgt⟩ := hdecrease
    exact exec_loadtbl_of_not_ordered hn fun ho =>
      Nat.not_le_of_gt hgt ((s.tableOrdered_iff n.toNat).mp ho i hi)
  case ordered => exact exec_loadtbl_of_ordered hn ((s.tableOrdered_iff n.toNat).mpr hordered)

/-- Settles O47: a step that does not keep `TVALID` sets it by LOADTBL or clears it in one of the three ways. -/
theorem whatChangesTableValidity : Obligations.WhatChangesTableValidity := by
  intro s t h
  obtain hkept | ⟨hset, hload⟩ | ⟨hcleared, hways⟩ := step_tvalid_cases h
  · rw [hkept]
    exact ⟨fun hs ht => (nomatch hs.symm.trans ht), fun hs ht => (nomatch hs.symm.trans ht)⟩
  · exact ⟨fun _ _ => hload, fun _ ht => (nomatch hset.symm.trans ht)⟩
  · exact ⟨fun _ ht => (nomatch hcleared.symm.trans ht), fun _ _ => hways⟩

/-- Settles O52: the check comes out alike over both memories, and LOADTBL reads them nowhere else. -/
theorem loadtblReadsOnlyThresholds : Obligations.LoadtblReadsOnlyThresholds := by
  intro s m n hsame
  obtain ⟨t, ht⟩ := exec_next (.loadtbl n) s
  refine ⟨t, ht, exec_setTmem ht (fun n' hn => ?_) nofun⟩
  cases hn
  exact State.tableOrdered_congr hsame

/-- Settles O30: each command's row, and its one write. -/
theorem registerLoadsWriteOneRegister : Obligations.RegisterLoadsWriteOneRegister :=
  ⟨codedImm16_of_row rfl, codedImm16_of_row rfl, codedImm16_of_row rfl, codedImm8_of_row rfl, codedImm16_of_row rfl,
    codedImm16_of_row rfl, fun _ _ _ => ⟨rfl, rfl, rfl, rfl, rfl, rfl⟩⟩

/-- Settles O31: the command's row, and its two writes, whatever `TBASE` held. -/
theorem settbaseInvalidatesTheTable : Obligations.SettbaseInvalidatesTheTable :=
  ⟨codedImm16_of_row rfl, fun _ _ => rfl⟩

/-- Settles O33: the command's row, and its two writes. -/
theorem clrerrClearsTheReport : Obligations.ClrerrClearsTheReport :=
  ⟨codedNone_of_row rfl, fun _ => rfl⟩

end Sys2Proof.Machine
end

section
/-! The linearizer command: its result as the plain number of Safety.lean, the square as three byte products, and the result
under the reset calibration (spec/42_linearizer.md R160 to R171). -/

namespace Sys2Proof.Machine

/-! LIN. -/

/-- LIN writes `LINF` (R160, R167). -/
theorem exec_lin (s : State) (x : Half) : exec (.lin x) s = .next { s with linf := linearize s.bias s.thresh x } := rfl

theorem linearize_toNat (bias t x : Half) : (linearize bias t x).toNat = linResult bias.toNat t.toNat x.toNat := by
  rw [linearize_eq, linSquare_toNat, linAdjust_toNat, linSquare_toNat, linStart_toNat, linResult]

/-- The shift by three loses the sensor sum's bits 15:13 (R161). -/
theorem linStart_congr (bias : Half) {x y : Half} (h : x.toNat % 0x2000 = y.toNat % 0x2000) :
    linStart bias x = linStart bias y := by
  have hshift : x.toNat * 8 % 65536 = y.toNat * 8 % 65536 := by omega
  apply BitVec.eq_of_toNat_eq
  rw [linStart_toNat, linStart_toNat, hshift]

/-! The square. -/

/-- The exact square of a half is at most 0xFFFE0001 (R163, R168). -/
theorem linSquare_le (x : Half) : (linSquare x).toNat ≤ 0xFFFE := by
  rw [linSquare_toNat]
  exact Nat.div_le_div_right (mul_lt_of_halves x x)

/-- The product of the high bytes counts whole 65536s (R164). -/
theorem squareHigh_of_bytes (h l : Nat) : squareHigh (256 * h + l) = h * h + (h * l * 512 + l * l) / 65536 := by
  have hsquare : (256 * h + l) * (256 * h + l) = 65536 * (h * h) + (h * l * 512 + l * l) := by ring
  rw [squareHigh, hsquare, Nat.mul_add_div (by decide)]

theorem squareHigh_mono : Monotone squareHigh := fun _ _ h => Nat.div_le_div_right (Nat.mul_le_mul h h)

/-! The reset calibration. -/

/-- Under an even threshold, where no step wraps, the adjustment is four times the excess over half of it, and a square not
above that half has no excess (R162, R165). -/
theorem adjusted_of_no_wrap {half x : Nat} (hx : x < 0x8000) (hexcess : x - half < 0x4000) :
    adjusted (2 * half) x = 4 * (x - half) := by
  unfold adjusted
  split_ifs <;> omega

/-- Under the reset calibration no step of LIN wraps on a sensor sum in [0, 1023] (R161, R165). -/
theorem linResult_resetCalibration {x : Nat} (hx : x ≤ 1023) :
    linResult 0x225D 0x09C0 x = squareHigh (4 * (squareHigh (x * 8 + 0x225D) - 0x04E0)) := by
  have hstart : (x * 8 % 65536 + 0x225D) % 65536 = x * 8 + 0x225D := by omega
  have hfirst : squareHigh (x * 8 + 0x225D) ≤ squareHigh (1023 * 8 + 0x225D) := squareHigh_mono (by omega)
  have hlast : squareHigh (1023 * 8 + 0x225D) = 0x112F := rfl
  rw [linResult, hstart, adjusted_of_no_wrap (half := 0x04E0) (by omega) (by omega)]

/-- Without a wrap every step is monotone (R171). -/
theorem linResult_resetCalibration_mono {x y : Nat} (hxy : x ≤ y) (hy : y ≤ 1023) :
    linResult 0x225D 0x09C0 x ≤ linResult 0x225D 0x09C0 y := by
  rw [linResult_resetCalibration (hxy.trans hy), linResult_resetCalibration hy]
  have hfirst : squareHigh (x * 8 + 0x225D) ≤ squareHigh (y * 8 + 0x225D) := squareHigh_mono (by omega)
  exact squareHigh_mono (by omega)

/-- Under the reset calibration LIN leaves `linResult` of its two constants in `LINF` (R27, R28). -/
theorem exec_lin_resetCalibration {s : State} (hbias : s.bias = 0x225D) (hthresh : s.thresh = 0x09C0) (x : Half) :
    ∃ t, exec (.lin x) s = .next t ∧ t.linf.toNat = linResult 0x225D 0x09C0 x.toNat := by
  refine ⟨_, exec_lin s x, ?_⟩
  rw [linearize_toNat, hbias, hthresh]
  rfl

/-! The statements. -/

/-- Settles O35: the two passes are square, adjust, square, each known as a number. -/
theorem linComputesTwoSquarings : Obligations.LinComputesTwoSquarings :=
  ⟨codedImm16_of_row rfl, fun s x => ⟨_, exec_lin s x, rfl, linearize_toNat s.bias s.thresh x⟩⟩

/-- Settles O36: the value is 256 times its high byte plus its low byte. -/
theorem squareFromThreeByteProducts : Obligations.SquareFromThreeByteProducts := by
  intro x h l
  have hbytes : x.toNat = 256 * h.toNat + l.toNat := by
    rw [high8_toNat, low8_toNat, Nat.div_add_mod]
  refine ⟨linSquare_toNat x, ?_⟩
  rw [linSquare_toNat, hbytes, squareHigh_of_bytes, Nat.shiftRight_eq_div_pow, Nat.shiftLeft_eq]
  simp only [mul8x8_toNat]

/-- Settles O37: what LIN leaves in `LINF` is a square's high half. -/
theorem linIsTotalAndBelowFFFF : Obligations.LinIsTotalAndBelowFFFF :=
  fun s x => ⟨_, exec_lin s x, linSquare_le _⟩

/-- Settles O38: both sensor sums start the two passes from one value. -/
theorem linIgnoresTheTopThreeBits : Obligations.LinIgnoresTheTopThreeBits := by
  intro s x y hxy
  rw [exec_lin, exec_lin, linearize_eq, linearize_eq, linStart_congr s.bias hxy]

/-- Settles O39: the result does not decrease up to 59, where it is 0. -/
theorem linFirstNonzeroAtSixty : Obligations.LinFirstNonzeroAtSixty := by
  refine ⟨by decide, by decide, fun s hbias hthresh => ⟨fun x hx => ?_, ?_⟩⟩
  · obtain ⟨t, ht, hlinf⟩ := exec_lin_resetCalibration hbias hthresh x
    have hle : linResult 0x225D 0x09C0 x.toNat ≤ linResult 0x225D 0x09C0 59 :=
      linResult_resetCalibration_mono (Nat.le_of_lt_succ hx) (by decide)
    have hlast : linResult 0x225D 0x09C0 59 = 0 := rfl
    exact ⟨t, ht, BitVec.eq_of_toNat_eq (hlinf.trans (Nat.le_zero.mp (hlast ▸ hle)))⟩
  · obtain ⟨t, ht, hlinf⟩ := exec_lin_resetCalibration hbias hthresh 60
    have hsixty : linResult 0x225D 0x09C0 60 = 1 := rfl
    exact ⟨t, ht, BitVec.eq_of_toNat_eq (hlinf.trans hsixty)⟩

/-- Settles O40: no step wraps over [0, 1023]; at 0x1FFF the sum with `BIAS` does, and the first square is not above half the
threshold. -/
theorem linIsMonotoneOverSensorRange : Obligations.LinIsMonotoneOverSensorRange := by
  refine fun s hbias hthresh => ⟨fun x y hxy hy => ?_, ?_⟩
  · obtain ⟨t, ht, htlinf⟩ := exec_lin_resetCalibration hbias hthresh x
    obtain ⟨u, hu, hulinf⟩ := exec_lin_resetCalibration hbias hthresh y
    refine ⟨t, u, ht, hu, ?_⟩
    rw [htlinf, hulinf]
    exact linResult_resetCalibration_mono hxy hy
  · obtain ⟨t, ht, hlinf⟩ := exec_lin_resetCalibration hbias hthresh 0x1FFF
    have hwrapped : linResult 0x225D 0x09C0 0x1FFF = 0 := rfl
    exact ⟨t, ht, BitVec.eq_of_toNat_eq (hlinf.trans hwrapped)⟩

end Sys2Proof.Machine
end

section
/-! The index engines: ROW's result and the ALU commands that compute the same steps, and COL's results at the record where
its scan ends (spec/43_index.md R180 to R200). -/

namespace Sys2Proof.Machine

/-! ROW. -/

/-- ROW writes `ROWIDX` (R180). -/
theorem exec_row (s : State) :
    exec .row s = .next { s with rowidx := rowIndex s.period s.linf s.subtr s.scale } := rfl

theorem rowIndex_toNat (p l subtr : Half) (scale : Byte) :
    (rowIndex p l subtr scale).toNat = rowResult (p.toNat * l.toNat / 65536) subtr.toNat scale.toNat := by
  rw [← rowProduct_toNat, rowResult]
  obtain ⟨hlt, h⟩ | ⟨hle, h⟩ := rowIndex_cases p l subtr scale
  · rw [h, if_pos hlt]
    rfl
  · rw [h, if_neg (Nat.not_lt_of_le hle), rowClipped_toNat, shiftRight1_toNat, sub16_exact hle]

/-- ROW's exit with 0: SUB16's borrow (R183). -/
theorem rowIndex_of_borrow {p l subtr : Half} {scale : Byte} (h : (sub16 (rowProduct p l) subtr).2 = false) :
    rowIndex p l subtr scale = 0x00 := by
  simp [rowIndex, h]

/-- ROW's other two exits, those of the clip tests on the halved difference (R183 to R185). -/
theorem rowIndex_of_no_borrow {p l subtr : Half} {scale : Byte} (h : (sub16 (rowProduct p l) subtr).2 = true) :
    rowIndex p l subtr scale = rowClipped scale (shiftRight1 (sub16 (rowProduct p l) subtr).1) :=
  if_pos h

/-- LDH of a byte and then MUL8: the byte times the low byte that was in `ACC` (R102, R107). -/
theorem mul8_after_ldh_toNat (s : State) (b : Byte) :
    (mul8x8 (s.setAcc (pair b s.accL)).accH (s.setAcc (pair b s.accL)).accL).toNat = s.acc.toNat % 256 * b.toNat := by
  have hhigh : (256 * b.toNat + s.acc.toNat % 256) / 256 = b.toNat := by omega
  have hlow : (256 * b.toNat + s.acc.toNat % 256) % 256 = s.acc.toNat % 256 := by omega
  rw [mul8x8_toNat, accH_toNat, accL_toNat, State.setAcc_acc, pair_toNat, accL_toNat, hhigh, hlow, Nat.mul_comm]

/-! COL. -/

/-- COL without a validated table (R199). -/
theorem exec_col_of_not_valid {s : State} (hv : s.tvalid = false) : exec .col s = .next (s.reject .noTable) := by
  simp [exec, execCol, hv]

/-- COL over a validated table writes `COLIDX` and `BRKT` (R190). -/
theorem exec_col_of_valid {s : State} (hv : s.tvalid = true) :
    exec .col s = .next { s with colidx := s.columnIndex.1, brkt := s.columnIndex.2 } := by
  simp [exec, execCol, hv]

/-- The scan of COL, over all records of the table (R191, R197). -/
def State.scanTable (s : State) : Option ColStop := s.colScan (s.tlen - 1).toNat 0

/-- What the scan of the table answers when it ends at record `i` (R193, R197). -/
def State.stopAt (s : State) (i : Nat) : ColStop := { i, cnt := s.tlen.toNat - 1 - i, rem := (s.colTest i).1 }

/-- No record of the table has a threshold at or above the period (R197). -/
def State.Exhausted (s : State) : Prop := ∀ i, i < s.tlen.toNat → s.recordThreshold i < s.period.toNat

/-- The remainder at a threshold at or above the period is the exact difference (R193). -/
theorem State.colTest_rem {s : State} {i : Nat} (h : s.period.toNat ≤ s.recordThreshold i) :
    (s.colTest i).1.toNat = s.recordThreshold i - s.period.toNat := by
  rw [← s.threshold_toNat i] at h ⊢
  exact sub16_exact h

theorem State.EndsAt.lt_tlen {s : State} {i : Nat} (h : s.EndsAt i) : i < s.tlen.toNat := h.1

theorem State.EndsAt.period_le {s : State} {i : Nat} (h : s.EndsAt i) : s.period.toNat ≤ s.recordThreshold i := h.2.1

theorem State.EndsAt.below_before {s : State} {i : Nat} (h : s.EndsAt i) {j : Nat} (hj : j < i) :
    s.recordThreshold j < s.period.toNat := h.2.2 j hj

/-- The scan ends at no two records. -/
theorem State.EndsAt.unique {s : State} {i j : Nat} (hi : s.EndsAt i) (hj : s.EndsAt j) : i = j := by
  obtain h | h | h := Nat.lt_trichotomy i j
  · exact absurd (hj.below_before h) (Nat.not_lt_of_le hi.period_le)
  · exact h
  · exact absurd (hi.below_before h) (Nat.not_lt_of_le hj.period_le)

/-- An exhausted scan ends at no record. -/
theorem State.EndsAt.not_exhausted {s : State} {i : Nat} (h : s.EndsAt i) : ¬s.Exhausted := fun hbelow =>
  Nat.not_lt_of_le h.period_le (hbelow i h.lt_tlen)

/-- Everything the scan of a table with a record can do (R191, R193, R197). -/
theorem State.scanTable_cases {s : State} (hlen : 1 ≤ s.tlen.toNat) :
    (s.scanTable = none ∧ s.Exhausted) ∨ ∃ i, s.scanTable = some (s.stopAt i) ∧ s.EndsAt i := by
  have hfirst : (s.tlen - 1).toNat = s.tlen.toNat - 1 := BitVec.toNat_sub_of_le hlen
  rw [State.scanTable, hfirst]
  obtain ⟨hnone, hbelow⟩ | ⟨stop, hsome, -, hsum, habove, hrem, hbefore⟩ := s.colScan_cases (s.tlen.toNat - 1) 0
  · exact .inl ⟨hnone, fun i hi => hbelow i (Nat.zero_le i) (by omega)⟩
  · have hcnt : stop.cnt = s.tlen.toNat - 1 - stop.i := by omega
    have hstop : stop = s.stopAt stop.i := by rw [State.stopAt, ← hcnt, ← hrem]
    exact .inr ⟨stop.i, hsome.trans (congrArg some hstop), by omega, habove, fun j => hbefore j (Nat.zero_le j)⟩

theorem State.scanTable_of_endsAt {s : State} {i : Nat} (hi : s.EndsAt i) : s.scanTable = some (s.stopAt i) := by
  obtain ⟨-, hbelow⟩ | ⟨j, hj, hends⟩ := State.scanTable_cases (Nat.one_le_of_lt hi.lt_tlen)
  · exact absurd hbelow hi.not_exhausted
  · rw [hj, hi.unique hends]

theorem State.scanTable_eq_none_iff {s : State} (hlen : 1 ≤ s.tlen.toNat) : s.scanTable = none ↔ s.Exhausted := by
  obtain ⟨hnone, hbelow⟩ | ⟨i, hsome, hends⟩ := State.scanTable_cases hlen
  · exact iff_of_true hnone hbelow
  · exact iff_of_false (by simp [hsome]) hends.not_exhausted

/-- What the scan answers names the record where it ends, and is `stopAt` of it. -/
theorem State.scanTable_eq_some {s : State} (hlen : 1 ≤ s.tlen.toNat) {stop : ColStop} (h : s.scanTable = some stop) :
    s.EndsAt stop.i ∧ stop = s.stopAt stop.i := by
  obtain ⟨hnone, -⟩ | ⟨i, hsome, hends⟩ := State.scanTable_cases hlen
  · exact nomatch hnone.symm.trans h
  · obtain rfl : s.stopAt i = stop := Option.some.inj (hsome.symm.trans h)
    exact ⟨hends, rfl⟩

/-- COL's results when the scan is exhausted: the sentinel (R197). -/
theorem State.columnIndex_of_exhausted {s : State} (hlen : 1 ≤ s.tlen.toNat) (h : s.Exhausted) :
    s.columnIndex = (0x00, 0x00) := by
  have hscan : s.colScan (s.tlen - 1).toNat 0 = none := (State.scanTable_eq_none_iff hlen).mpr h
  simp only [State.columnIndex, hscan]

/-- `BRKT` when the scan ends at record `i` (R198). -/
theorem State.columnIndex_brkt {s : State} {i : Nat} (h : s.EndsAt i) :
    s.columnIndex.2.toNat = 16 * ((s.tlen.toNat - 1 - i) % 16) := by
  have hscan : s.colScan (s.tlen - 1).toNat 0 = some (s.stopAt i) := State.scanTable_of_endsAt h
  simp only [State.columnIndex, hscan, colUpper_toNat, State.stopAt]

/-- `COLIDX` when the scan ends at record `i` (R193 to R196). -/
theorem State.columnIndex_colidx {s : State} {i : Nat} (h : s.EndsAt i) :
    s.columnIndex.1.toNat = 16 * ((s.tlen.toNat - 1 - i) % 16) |||
      (deltaResult s.colBit7Delta (s.recordByte i 2) (s.recordThreshold i - s.period.toNat) * s.recordByte i 3 / 256) := by
  have hscan : s.colScan (s.tlen - 1).toNat 0 = some (s.stopAt i) := State.scanTable_of_endsAt h
  simp only [State.columnIndex, hscan, BitVec.toNat_or, colUpper_toNat, State.colWeighted_toNat, State.stopAt,
    State.colTest_rem h.period_le]

/-! The bracket of the period. -/

/-- The thresholds of a valid table do not decrease, over any distance (R146). -/
theorem State.Inv.recordThreshold_mono {s : State} (hs : s.Inv) (hv : s.tvalid = true) {i j : Nat} (hij : i ≤ j)
    (hj : j < s.tlen.toNat) : s.recordThreshold i ≤ s.recordThreshold j := by
  induction j, hij using Nat.le_induction with
  | base => exact le_refl _
  | succ j hij ih =>
    have hnext := hs.tableSorted hv j hj
    rw [s.threshold_toNat, s.threshold_toNat] at hnext
    exact (ih (Nat.lt_of_succ_lt hj)).trans hnext

/-- In a valid table the record where the scan ends is the bracket that contains the period (R191). -/
theorem State.Inv.endsAt_iff {s : State} (hs : s.Inv) (hv : s.tvalid = true) (i : Nat) :
    s.EndsAt i ↔ i < s.tlen.toNat ∧ ∀ j, j < s.tlen.toNat →
      (j < i → s.recordThreshold j < s.period.toNat) ∧ (i ≤ j → s.period.toNat ≤ s.recordThreshold j) := by
  constructor
  · rintro ⟨hi, hstop, hbefore⟩
    exact ⟨hi, fun j hj => ⟨hbefore j, fun hij => hstop.trans (hs.recordThreshold_mono hv hij hj)⟩⟩
  · rintro ⟨hi, hbracket⟩
    exact ⟨hi, (hbracket i hi).right (le_refl i), fun j hj => (hbracket j (hj.trans hi)).left hj⟩

/-! What COL reads. -/

/-- `s'` has the bytes that COL reads over the table of `s`: the thresholds of the records its scan visits, and offsets 2 and 3
of the record where it ends (R192). -/
def State.AgreesOnVisited (s s' : State) : Prop :=
  ∀ i, i < s.tlen.toNat → (∀ j, j < i → s.recordThreshold j < s.period.toNat) →
    s'.recordByte i 0 = s.recordByte i 0 ∧ s'.recordByte i 1 = s.recordByte i 1 ∧
    (s.period.toNat ≤ s.recordThreshold i →
      s'.recordByte i 2 = s.recordByte i 2 ∧ s'.recordByte i 3 = s.recordByte i 3)

/-- COL's results come out alike over both memories (R192). -/
theorem State.columnIndex_setTmem {s : State} {m : Memory} (hlen : 1 ≤ s.tlen.toNat)
    (h : s.AgreesOnVisited { s with tmem := m }) : State.columnIndex { s with tmem := m } = s.columnIndex := by
  have hthreshold (i : Nat) (hi : i < s.tlen.toNat) (hbefore : ∀ j, j < i → s.recordThreshold j < s.period.toNat) :
      State.recordThreshold { s with tmem := m } i = s.recordThreshold i := by
    obtain ⟨h0, h1, -⟩ := h i hi hbefore
    rw [State.recordThreshold, State.recordThreshold, h0, h1]
  obtain ⟨-, hbelow⟩ | ⟨i, -, hends⟩ := State.scanTable_cases hlen
  · have hbelow' : State.Exhausted { s with tmem := m } := fun i hi =>
      (hthreshold i hi fun j hj => hbelow j (hj.trans hi)).trans_lt (hbelow i hi)
    rw [State.columnIndex_of_exhausted hlen hbelow]
    exact State.columnIndex_of_exhausted hlen hbelow'
  · have hsame := hthreshold i hends.lt_tlen fun _ => hends.below_before
    have hends' : State.EndsAt { s with tmem := m } i :=
      ⟨hends.lt_tlen, hends.period_le.trans_eq hsame.symm, fun j hj =>
        (hthreshold j (hj.trans hends.lt_tlen) fun _ hk => hends.below_before (hk.trans hj)).trans_lt
          (hends.below_before hj)⟩
    obtain ⟨-, -, hweight⟩ := h i hends.lt_tlen fun _ => hends.below_before
    obtain ⟨hcontrol, hmultiplier⟩ := hweight hends.period_le
    refine Prod.ext (BitVec.eq_of_toNat_eq ?_) (BitVec.eq_of_toNat_eq ?_)
    · rw [State.columnIndex_colidx hends, State.columnIndex_colidx hends', hcontrol, hmultiplier, hsame]
    · rw [State.columnIndex_brkt hends, State.columnIndex_brkt hends']

/-! The statements. -/

/-- Settles O41: the engine's value is `rowResult`, and every exit of it is clipped. -/
theorem rowComputesTheClippedIndex : Obligations.RowComputesTheClippedIndex :=
  ⟨codedNone_of_row rfl, fun s => ⟨_, exec_row s, rfl, rowIndex_toNat _ _ _ _, rowIndex_le _ _ _ _⟩⟩

/-- Settles O42: the commands leave in `C` and `ACC` the values the engine branches on. -/
theorem rowAgreesWithItsAluProgram : Obligations.RowAgreesWithItsAluProgram := by
  intro s p hp
  obtain rfl : p = rowProduct s.period s.linf := BitVec.eq_of_toNat_eq (hp.trans (rowProduct_toNat _ _).symm)
  refine ⟨_, _, _, _, rfl, rfl, rfl, exec_row s, rowIndex_of_borrow, fun hc hhigh => ?saturated, fun hc hhigh => ?scaled⟩
  case saturated =>
    refine (rowIndex_of_no_borrow hc).trans (BitVec.eq_of_toNat_eq ?_)
    exact (rowClipped_toNat _ _).trans (if_pos hhigh)
  case scaled =>
    set d := shiftRight1 (sub16 (rowProduct s.period s.linf) s.subtr).1
    have hclear : ¬d.toNat / 256 ≠ 0 := not_not.mpr hhigh
    calc (rowIndex s.period s.linf s.subtr s.scale).toNat = (rowClipped s.scale d).toNat :=
          congrArg BitVec.toNat (rowIndex_of_no_borrow hc)
      _ = min (d.toNat % 256 * s.scale.toNat / 256) 0x70 := by rw [rowClipped_toNat, if_neg hclear]
      _ = _ := congrArg (fun n => min (n / 256) 0x70) (mul8_after_ldh_toNat (s.setAcc d) s.scale).symm

/-- Settles O43: COL's two results by the record where the scan ends, or by its exhaustion. -/
theorem colWeighsTheBracketRecord : Obligations.ColWeighsTheBracketRecord := by
  refine ⟨codedNone_of_row rfl, fun s hv => exec_col_of_not_valid hv, fun s hv hlen => ?_⟩
  refine ⟨_, exec_col_of_valid hv, rfl, fun i hi => ?_, fun hbelow => ?_⟩
  · exact ⟨State.columnIndex_brkt hi, State.columnIndex_colidx hi⟩
  · exact Prod.mk.inj (State.columnIndex_of_exhausted hlen hbelow)

/-- Settles O44: the scan of a valid table ends at record `i` exactly where `i` is the bracket. -/
theorem scanEndsAtTheContainingBracket : Obligations.ScanEndsAtTheContainingBracket := by
  intro s hs hv
  have hlen := hs.tableNonempty hv
  have hbracket := hs.endsAt_iff hv
  refine ⟨fun i => ⟨?_, fun hi => ?_⟩, fun stop hstop => ?_, State.scanTable_eq_none_iff hlen,
    _, exec_col_of_valid hv, fun i hi => State.columnIndex_brkt ((hbracket i).mpr hi)⟩
  · rintro ⟨stop, hstop, rfl⟩
    exact (hbracket stop.i).mp (State.scanTable_eq_some hlen hstop).left
  · exact ⟨s.stopAt i, State.scanTable_of_endsAt ((hbracket i).mpr hi), rfl⟩
  · obtain ⟨hends, hstop⟩ := State.scanTable_eq_some hlen hstop
    rw [hstop]
    exact ⟨Nat.add_sub_cancel' (Nat.le_sub_one_of_lt hends.lt_tlen), State.colTest_rem hends.period_le⟩

/-- Settles O53: a rejected COL reads no byte, and over a valid table the results come out alike. -/
theorem colReadsOnlyVisitedRecords : Obligations.ColReadsOnlyVisitedRecords := by
  intro s m h
  obtain ⟨t, ht⟩ := exec_next .col s
  refine ⟨t, ht, exec_setTmem ht nofun fun _ hv => ?_⟩
  obtain ⟨hlen, hagree⟩ := h hv
  exact State.columnIndex_setTmem hlen hagree

end Sys2Proof.Machine
end

section
/-! Rejections and actions: what `ERR` and `ECAUSE` are written by and never read by, and a run performs what is pending
(spec/60_exceptions.md R210 to R229). -/

namespace Sys2Proof.Machine

/-! `ERR` and `ECAUSE` under a command. -/

/-- A command other than CLRERR leaves `ERR` set where it is set (R217). -/
theorem exec_keeps_err_set {i : Instr} {s t : State} (h : exec i s = .next t) (hi : i ≠ .clrerr) (hs : s.err = true) :
    t.err = true := by
  cases i with
  | clrerr => exact absurd rfl hi
  | loadtbl n =>
    obtain ⟨c, rfl⟩ | ⟨-, -, rfl⟩ := exec_loadtbl_cases h
    · exact s.reject_err c
    · exact hs
  | col =>
    cases hv : s.tvalid with
    | false => rw [exec_col_of_not_valid hv] at h; cases h; exact s.reject_err .noTable
    | true => rw [exec_col_of_valid hv] at h; cases h; exact hs
  | _ => cases h; exact hs

/-- A command has the same effect on everything but `ERR` and `ECAUSE` whatever the two hold (R217). -/
theorem exec_setReport {i : Instr} {s t : State} (h : exec i s = .next t) (e : Bool) (c : Byte) :
    ∃ e' c', exec i { s with err := e, ecause := c } = .next { t with err := e', ecause := c' } := by
  cases i with
  | loadtbl n =>
    have hT : State.tableOrdered { s with err := e, ecause := c } n.toNat = s.tableOrdered n.toNat := rfl
    simp only [exec, execLoadtbl, hT] at h ⊢
    split_ifs at h ⊢ <;> (cases h; exact ⟨_, _, rfl⟩)
  | col =>
    have hC : State.columnIndex { s with err := e, ecause := c } = s.columnIndex :=
      State.columnIndex_congr (fun _ => rfl) rfl fun _ => rfl
    simp only [exec, execCol, hC] at h ⊢
    split_ifs at h ⊢ <;> (cases h; exact ⟨_, _, rfl⟩)
  | _ => cases h; exact ⟨_, _, rfl⟩

/-! Runs of issued actions. -/

/-- Where no pending input was issued too early, the pending inputs are issued actions (R255). -/
theorem State.HandshakeKept.exists_actions {s : State} (hs : s.HandshakeKept) :
    ∃ as : List Action, s.pending = as.map Input.issued := by
  have hissued (inp : Input) (hmem : inp ∈ s.pending) : ∃ a, Input.issued a = inp := by
    cases inp with
    | issued a => exact ⟨a, rfl⟩
    | early a => exact absurd hmem (hs a)
  have hmap : s.pending ∈ Set.range (List.map Input.issued) := (Set.range_list_map Input.issued).ge hissued
  obtain ⟨as, has⟩ := hmap
  exact ⟨as, has.symm⟩

/-- A run over pending actions performs them in order, one a step, and leaves the port empty (R72, R229). -/
theorem run_performs_pending {as : List Action} {s : State} (hp : s.pending = as.map Input.issued) :
    ∃ t, core.run as.length s = .next t ∧ performAll as { s with pending := [] } = .next t ∧ t.pending = [] := by
  induction as generalizing s with
  | nil =>
    have hself : { s with pending := [] } = s := by rw [← List.map_nil, ← hp]
    exact ⟨s, rfl, congrArg Host.Outcome.next hself, hp⟩
  | cons a as ih =>
    obtain ⟨u, hu⟩ := perform_next a { s with pending := as.map Input.issued }
    have hstep : step s = .next u := (step_issued hp).trans hu
    have hfirst : perform a { s with pending := [] } = .next { u with pending := [] } := perform_setPending hu []
    obtain ⟨t, hrun, hall, hempty⟩ := ih (perform_pending hu)
    exact ⟨t, (run_succ as.length hstep).trans hrun, (performAll_cons as hfirst).trans hall, hempty⟩

/-! The statements. -/

/-- Settles O20: with the handshake kept the pending inputs are issued actions, and the run performs them. -/
theorem everyPendingActionIsPerformed : Obligations.EveryPendingActionIsPerformed := by
  intro s hs
  obtain ⟨as, hp⟩ := hs.exists_actions
  exact ⟨as, (run_performs_pending hp).imp fun _ => And.intro hp⟩

/-- Settles O48: of the things a step can do, only CLRERR and RESET clear `ERR`, and no command reads the report. -/
theorem errorIsStickyAndHarmless : Obligations.ErrorIsStickyAndHarmless := by
  refine ⟨fun s t h hs ht => ?_, fun i s e c => ?_⟩
  · obtain ⟨-, rfl⟩ | ⟨rest, hp, -⟩ | ⟨r, rest, -, rfl⟩ | ⟨a, v, rest, -, rfl⟩ | ⟨w, rest, c, -, -, rfl⟩ |
      ⟨w, rest, i, hp, hd, hx⟩ := step_cases h
    · exact absurd (hs.symm.trans ht) nofun
    · exact .inl ⟨rest, hp⟩
    · exact absurd (hs.symm.trans ht) nofun
    · exact absurd (hs.symm.trans ht) nofun
    · exact absurd ht nofun
    · obtain rfl : i = .clrerr := Decidable.byContradiction fun hi =>
        absurd ((exec_keeps_err_set hx hi hs).symm.trans ht) nofun
      exact .inr ⟨w, rest, hp, hd⟩
  · obtain ⟨t, ht⟩ := exec_next i s
    obtain ⟨e', c', hu⟩ := exec_setReport ht e c
    exact ⟨t, _, ht, hu, rfl⟩

/-- Settles O10: each way to be rejected answers `State.reject` of its cause. -/
theorem rejectionWritesOnlyErrorAndCause : Obligations.RejectionWritesOnlyErrorAndCause := by
  refine fun s => ⟨fun w rest hp => ?submitted, exec_loadtbl_zero s, fun n i hi hgt => ?decreasing, exec_col_of_not_valid⟩
  case submitted =>
    obtain ⟨-, hrejected⟩ := stepRunsTheDecodedCommand s w rest hp
    exact ⟨hrejected .illegalOpcode, hrejected .reservedBits⟩
  case decreasing =>
    have hn : n ≠ 0 := by
      rintro rfl
      exact absurd hi (Nat.not_lt_zero _)
    exact exec_loadtbl_of_not_ordered hn fun ho =>
      Nat.not_le_of_gt hgt ((s.tableOrdered_iff n.toNat).mp ho i hi)

/-- Settles O18: with nothing pending there is no action to perform. -/
theorem idleBlockHoldsItsState : Obligations.IdleBlockHoldsItsState := by
  intro s hp
  simp only [step, hp]

/-- Settles O19: an idle block and an issued action give a next state, an early action gives the fault. -/
theorem onlyAnEarlyActionStops : Obligations.OnlyAnEarlyActionStops := by
  refine fun s => ⟨⟨?not_early_of_next, fun hnone => ?next_of_not_early⟩, fun ⟨_, _, hp⟩ => step_early hp⟩
  case not_early_of_next =>
    rintro ⟨t, ht⟩ ⟨a, rest, hp⟩
    exact absurd ((step_early hp).symm.trans ht) nofun
  case next_of_not_early =>
    rcases hp : s.pending with _ | ⟨a | a, rest⟩
    · exact ⟨s, idleBlockHoldsItsState s hp⟩
    · rw [step_issued hp]
      exact perform_next a _
    · exact absurd ⟨a, rest, hp⟩ hnone

end Sys2Proof.Machine
end

section
/-! Reset, and the order in which a table is placed, loaded and scanned (spec/70_reset_and_hazards.md R240 to R246). -/

namespace Sys2Proof.Machine

/-! RESET. -/

/-- RESET performs on the state with the action taken off the port (R226). -/
theorem step_reset {s : State} {rest : List Input} (hp : s.pending = .issued .reset :: rest) :
    step s = .next (State.resetRegisters { s with pending := rest }) := step_issued hp

/-! Placing, loading and scanning a table. -/

/-- LOADTBL's check does not read `TVALID` (R142). -/
theorem State.tableOrdered_setTvalid (s : State) (v : Bool) (n : Nat) :
    State.tableOrdered { s with tvalid := v } n = s.tableOrdered n := rfl

/-- SETTBASE, then LOADTBL of a table that is sorted at the new base, make that table valid and write nothing else
(R136, R143). -/
theorem execAll_settbase_loadtbl {s : State} {base : Half} {n : Byte} (hn : n ≠ 0)
    (ho : State.tableOrdered { s with tbase := base } n.toNat = true) :
    execAll [.settbase base, .loadtbl n] s = .next { s with tbase := base, tlen := n, tvalid := true } := by
  have hplaced : State.tableOrdered { s with tbase := base, tvalid := false } n.toNat = true :=
    (State.tableOrdered_setTvalid { s with tbase := base } false n.toNat).trans ho
  obtain ⟨-, hsettbase⟩ := settbaseInvalidatesTheTable
  rw [execAll_cons _ (hsettbase s base), execAll_cons _ (exec_loadtbl_of_ordered hn hplaced)]
  rfl

/-- COL right after SETTBASE is rejected, whatever was valid before (R136, R199). -/
theorem execAll_settbase_col (s : State) (base : Half) :
    execAll [.settbase base, .col] s = .next (State.reject .noTable { s with tbase := base, tvalid := false }) := by
  obtain ⟨-, hsettbase⟩ := settbaseInvalidatesTheTable
  rw [execAll_cons _ (hsettbase s base), execAll_cons _ (exec_col_of_not_valid rfl)]
  rfl

/-- LOADTBL, accepted or rejected, leaves the two results of COL (R34). -/
theorem exec_loadtbl_keeps_col_results {s t : State} {n : Byte} (h : exec (.loadtbl n) s = .next t) :
    t.colidx = s.colidx ∧ t.brkt = s.brkt := by
  obtain ⟨-, hkept | hcol, -⟩ := exec_result_writers h
  · exact hkept
  · exact absurd hcol nofun

/-! The statements. -/

/-- Settles O34: LOADTBL last, COL scans the table just loaded; SETTBASE last, the table is no longer valid when COL comes. -/
theorem tableMustBeLoadedAfterItIsPlaced : Obligations.TableMustBeLoadedAfterItIsPlaced := by
  refine fun s base n hn hsorted => ⟨?placed_then_loaded, ?loaded_then_placed⟩
  case placed_then_loaded =>
    have hload := execAll_settbase_loadtbl hn ((State.tableOrdered_iff _ n.toNat).mpr hsorted)
    have hall := (execAll_append [.col] hload).trans (execAll_cons [] (exec_col_of_valid rfl))
    exact ⟨_, hall, rfl, rfl, rfl, rfl, rfl⟩
  case loaded_then_placed =>
    obtain ⟨t, ht⟩ := exec_next (.loadtbl n) s
    obtain ⟨hcolidx, hbrkt⟩ := exec_loadtbl_keeps_col_results ht
    have hall := (execAll_cons [.settbase base, .col] ht).trans (execAll_settbase_col t base)
    exact ⟨_, hall, rfl, rfl, rfl, hcolidx, hbrkt⟩

/-- Settles O15: each register's reset value; the table memory stays, and COL finds `TVALID` clear. -/
theorem resetSetsRegistersKeepsTable : Obligations.ResetSetsRegistersKeepsTable := fun _ _ hp =>
  ⟨_, step_reset hp, launchStateIsTheResetState, State.memRead1_of_tmem_eq rfl, exec_col_of_not_valid rfl⟩

/-- Settles O16: of the model's own fields RESET writes none; the action itself has been taken off the port. -/
theorem resetKeepsPortAndParameter : Obligations.ResetKeepsPortAndParameter := fun _ _ hp =>
  ⟨_, step_reset hp, rfl, rfl, rfl⟩

end Sys2Proof.Machine
end
